-- ==== Sys2Proof/Word.lean ====
section
/-! DEFINITION. The machine's word types (spec/00_scope.md R6, R11): every value is unsigned, so a
byte or a word is a bit vector whose arithmetic wraps; nothing is ever sign-extended. -/

namespace Sys2Proof

/-- An 8-bit value: a memory cell, a general register, a timer, eight pixels. -/
abbrev Byte := BitVec 8

/-- A 16-bit value: an instruction word, `pc`, `I`, a return address, the held-key mask. -/
abbrev Word := BitVec 16

/-- The number `i` of a general register `V[i]`, 0 to 15 (R21), or of a logical key (R15). -/
abbrev RegNum := Fin 16

end Sys2Proof
end

