-- ==== Sys2Proof/Syntax.lean ====
section
/-! DEFINITION. The instruction set as syntax: one constructor per row of spec/opcode_table.json
(spec/30_encoding.md R98), with its operands already pulled out of the word (R13, R94, R95). -/

namespace Sys2Proof

/-- The 34 instructions of R98. `x`, `y` are register numbers, `nn` an 8-bit constant, `nnn` a
12-bit address, `n` a row count. The field `y` of `shr` and `shl` is present in the encoding and
ignored by the instruction (R95). -/
inductive Instr where
  /-- `00E0`, CLS (R185). -/
  | cls
  /-- `00EE`, RET (R112). -/
  | ret
  /-- `1NNN`, JP NNN (R111). -/
  | jp (nnn : BitVec 12)
  /-- `2NNN`, CALL NNN (R113). -/
  | call (nnn : BitVec 12)
  /-- `3XNN`, SE Vx, NN (R115). -/
  | seImm (x : RegNum) (nn : Byte)
  /-- `4XNN`, SNE Vx, NN (R116). -/
  | sneImm (x : RegNum) (nn : Byte)
  /-- `5XY0`, SE Vx, Vy (R117). -/
  | seReg (x y : RegNum)
  /-- `6XNN`, LD Vx, NN (R132). -/
  | ldImm (x : RegNum) (nn : Byte)
  /-- `7XNN`, ADD Vx, NN (R133). -/
  | addImm (x : RegNum) (nn : Byte)
  /-- `8XY0`, LD Vx, Vy (R134). -/
  | ldReg (x y : RegNum)
  /-- `8XY1`, OR Vx, Vy (R135). -/
  | orReg (x y : RegNum)
  /-- `8XY2`, AND Vx, Vy (R136). -/
  | andReg (x y : RegNum)
  /-- `8XY3`, XOR Vx, Vy (R137). -/
  | xorReg (x y : RegNum)
  /-- `8XY4`, ADD Vx, Vy (R138). -/
  | addReg (x y : RegNum)
  /-- `8XY5`, SUB Vx, Vy (R139). -/
  | subReg (x y : RegNum)
  /-- `8XY6`, SHR Vx; `y` is ignored (R140). -/
  | shr (x y : RegNum)
  /-- `8XY7`, SUBN Vx, Vy (R141). -/
  | subnReg (x y : RegNum)
  /-- `8XYE`, SHL Vx; `y` is ignored (R142). -/
  | shl (x y : RegNum)
  /-- `9XY0`, SNE Vx, Vy (R118). -/
  | sneReg (x y : RegNum)
  /-- `ANNN`, LD I, NNN (R161). -/
  | ldI (nnn : BitVec 12)
  /-- `BNNN`, JP V0, NNN (R114). -/
  | jpV0 (nnn : BitVec 12)
  /-- `CXNN`, RND Vx, NN (R143). -/
  | rnd (x : RegNum) (nn : Byte)
  /-- `DXYN`, DRW Vx, Vy, N (R186). -/
  | drw (x y : RegNum) (n : Nat)
  /-- `EX9E`, SKP Vx (R201). -/
  | skp (x : RegNum)
  /-- `EXA1`, SKNP Vx (R202). -/
  | sknp (x : RegNum)
  /-- `FX07`, LD Vx, DT (R206). -/
  | ldVxDT (x : RegNum)
  /-- `FX0A`, LD Vx, K (R204). -/
  | ldVxK (x : RegNum)
  /-- `FX15`, LD DT, Vx (R207). -/
  | ldDTVx (x : RegNum)
  /-- `FX18`, LD ST, Vx (R208). -/
  | ldSTVx (x : RegNum)
  /-- `FX1E`, ADD I, Vx (R162). -/
  | addI (x : RegNum)
  /-- `FX29`, LD F, Vx (R163). -/
  | ldF (x : RegNum)
  /-- `FX33`, LD B, Vx (R164). -/
  | ldB (x : RegNum)
  /-- `FX55`, LD [I], Vx: `x` is the inclusive upper bound of the range stored (R165). -/
  | storeRegs (x : RegNum)
  /-- `FX65`, LD Vx, [I]: `x` is the inclusive upper bound of the range loaded (R166). -/
  | loadRegs (x : RegNum)
deriving DecidableEq, Repr

end Sys2Proof
end

