-- ==== Sys2Proof/Decode.lean ====
section
/-! DEFINITION. Decoding a 16-bit word (spec/30_encoding.md R96, R98, R100), total on all 65536 words
and on any bytes, and the encoder written from the same table (R93, R98). -/

namespace Sys2Proof

/-- The 16-bit word of two bytes, the first in bits 15:8 (R61: the fetch is big-endian). -/
def wordOfBytes (hi lo : Byte) : Word := hi ++ lo

/-- Why a word is no instruction: the two causes of R100. -/
inductive Illegal where
  /-- `0NNN` other than `00E0` and `00EE`. -/
  | unimplementedSys
  /-- Any other word that matches no row of R98. -/
  | unknownOpcode
deriving DecidableEq, Repr

/-- What a word decodes to (R90: `illegal(cause)` or an instruction). -/
inductive Decoded where
  /-- The word is this instruction. -/
  | instr (i : Instr)
  /-- The word is illegal. -/
  | illegal (c : Illegal)
deriving DecidableEq, Repr

/-- `OP = w[15:12]` (R13). -/
def fieldOP (w : Word) : BitVec 4 := w.extractLsb' 12 4

/-- `X = w[11:8]` (R13), a register number (R95). -/
def fieldX (w : Word) : RegNum := (w.extractLsb' 8 4).toFin

/-- `Y = w[7:4]` (R13), a register number (R95). -/
def fieldY (w : Word) : RegNum := (w.extractLsb' 4 4).toFin

/-- `N = w[3:0]` (R13). -/
def fieldN (w : Word) : BitVec 4 := w.extractLsb' 0 4

/-- `NN = w[7:0]` (R13). -/
def fieldNN (w : Word) : Byte := w.extractLsb' 0 8

/-- `NNN = w[11:0]` (R13). -/
def fieldNNN (w : Word) : BitVec 12 := w.extractLsb' 0 12

/-- The family `0x0`: only `00E0` and `00EE` are instructions (R96, R100). -/
def decodeSys (w : Word) : Decoded :=
  if w = 0x00E0#16 then .instr .cls
  else if w = 0x00EE#16 then .instr .ret
  else .illegal .unimplementedSys

/-- The family `0x8`, selected by the last digit (R96, R98). -/
def decodeAlu (w : Word) : Decoded :=
  let x := fieldX w
  let y := fieldY w
  match (fieldN w).toNat with
  | 0x0 => .instr (.ldReg x y)
  | 0x1 => .instr (.orReg x y)
  | 0x2 => .instr (.andReg x y)
  | 0x3 => .instr (.xorReg x y)
  | 0x4 => .instr (.addReg x y)
  | 0x5 => .instr (.subReg x y)
  | 0x6 => .instr (.shr x y)
  | 0x7 => .instr (.subnReg x y)
  | 0xE => .instr (.shl x y)
  | _ => .illegal .unknownOpcode

/-- The family `0xE`, selected by the low byte (R96, R98). -/
def decodeKey (w : Word) : Decoded :=
  if fieldNN w = 0x9E#8 then .instr (.skp (fieldX w))
  else if fieldNN w = 0xA1#8 then .instr (.sknp (fieldX w))
  else .illegal .unknownOpcode

/-- The family `0xF`, selected by the low byte (R96, R98). -/
def decodeMisc (w : Word) : Decoded :=
  let x := fieldX w
  if fieldNN w = 0x07#8 then .instr (.ldVxDT x)
  else if fieldNN w = 0x0A#8 then .instr (.ldVxK x)
  else if fieldNN w = 0x15#8 then .instr (.ldDTVx x)
  else if fieldNN w = 0x18#8 then .instr (.ldSTVx x)
  else if fieldNN w = 0x1E#8 then .instr (.addI x)
  else if fieldNN w = 0x29#8 then .instr (.ldF x)
  else if fieldNN w = 0x33#8 then .instr (.ldB x)
  else if fieldNN w = 0x55#8 then .instr (.storeRegs x)
  else if fieldNN w = 0x65#8 then .instr (.loadRegs x)
  else .illegal .unknownOpcode

/-- R96: select on `OP`, then on the further fixed digits; the last digit of `5XY0` and `9XY0` must
be 0 (strict decode, spec decision D12). -/
def decodeWord (w : Word) : Decoded :=
  let x := fieldX w
  match (fieldOP w).toNat with
  | 0x0 => decodeSys w
  | 0x1 => .instr (.jp (fieldNNN w))
  | 0x2 => .instr (.call (fieldNNN w))
  | 0x3 => .instr (.seImm x (fieldNN w))
  | 0x4 => .instr (.sneImm x (fieldNN w))
  | 0x5 => if fieldN w = 0#4 then .instr (.seReg x (fieldY w)) else .illegal .unknownOpcode
  | 0x6 => .instr (.ldImm x (fieldNN w))
  | 0x7 => .instr (.addImm x (fieldNN w))
  | 0x8 => decodeAlu w
  | 0x9 => if fieldN w = 0#4 then .instr (.sneReg x (fieldY w)) else .illegal .unknownOpcode
  | 0xA => .instr (.ldI (fieldNNN w))
  | 0xB => .instr (.jpV0 (fieldNNN w))
  | 0xC => .instr (.rnd x (fieldNN w))
  | 0xD => .instr (.drw x (fieldY w) (fieldN w).toNat)
  | 0xE => decodeKey w
  | _ => decodeMisc w

/-- What the first bytes of a byte string decode to. -/
inductive DecodedBytes where
  /-- An instruction, and the bytes after it (R92: every instruction has 2 bytes). -/
  | instr (i : Instr) (rest : List Byte)
  /-- Two bytes that are no instruction. -/
  | illegal (c : Illegal)
  /-- Fewer than two bytes. -/
  | truncated
deriving DecidableEq, Repr

/-- Decode the first two bytes, the first of them bits 15:8 of the word (R61, R92). -/
def decode : List Byte → DecodedBytes
  | hi :: lo :: rest =>
    match decodeWord (wordOfBytes hi lo) with
    | .instr i => .instr i rest
    | .illegal c => .illegal c
  | [_] => .truncated
  | [] => .truncated

/-! ## The match and mask columns of R98: `w` selects the row iff `w & mask = match` -/

/-- The mask column of the row of an instruction (R98). -/
def rowMask : Instr → Word
  | .cls | .ret => 0xFFFF#16
  | .jp _ | .call _ | .seImm _ _ | .sneImm _ _ | .ldImm _ _ | .addImm _ _ | .ldI _ | .jpV0 _
  | .rnd _ _ | .drw _ _ _ => 0xF000#16
  | .seReg _ _ | .ldReg _ _ | .orReg _ _ | .andReg _ _ | .xorReg _ _ | .addReg _ _ | .subReg _ _
  | .shr _ _ | .subnReg _ _ | .shl _ _ | .sneReg _ _ => 0xF00F#16
  | .skp _ | .sknp _ | .ldVxDT _ | .ldVxK _ | .ldDTVx _ | .ldSTVx _ | .addI _ | .ldF _ | .ldB _
  | .storeRegs _ | .loadRegs _ => 0xF0FF#16

/-- The match column of the row of an instruction (R98). -/
def rowMatch : Instr → Word
  | .cls => 0x00E0#16
  | .ret => 0x00EE#16
  | .jp _ => 0x1000#16
  | .call _ => 0x2000#16
  | .seImm _ _ => 0x3000#16
  | .sneImm _ _ => 0x4000#16
  | .seReg _ _ => 0x5000#16
  | .ldImm _ _ => 0x6000#16
  | .addImm _ _ => 0x7000#16
  | .ldReg _ _ => 0x8000#16
  | .orReg _ _ => 0x8001#16
  | .andReg _ _ => 0x8002#16
  | .xorReg _ _ => 0x8003#16
  | .addReg _ _ => 0x8004#16
  | .subReg _ _ => 0x8005#16
  | .shr _ _ => 0x8006#16
  | .subnReg _ _ => 0x8007#16
  | .shl _ _ => 0x800E#16
  | .sneReg _ _ => 0x9000#16
  | .ldI _ => 0xA000#16
  | .jpV0 _ => 0xB000#16
  | .rnd _ _ => 0xC000#16
  | .drw _ _ _ => 0xD000#16
  | .skp _ => 0xE09E#16
  | .sknp _ => 0xE0A1#16
  | .ldVxDT _ => 0xF007#16
  | .ldVxK _ => 0xF00A#16
  | .ldDTVx _ => 0xF015#16
  | .ldSTVx _ => 0xF018#16
  | .addI _ => 0xF01E#16
  | .ldF _ => 0xF029#16
  | .ldB _ => 0xF033#16
  | .storeRegs _ => 0xF055#16
  | .loadRegs _ => 0xF065#16

/-! ## The encoder (R93, R98) -/

/-- Format `NNN`: `OP NNN`. -/
def fmtNNN (op : BitVec 4) (nnn : BitVec 12) : Word := op ++ nnn

/-- Format `XNN`: `OP X NN`. -/
def fmtXNN (op : BitVec 4) (x : RegNum) (nn : Byte) : Word := op ++ (BitVec.ofFin x ++ nn : BitVec 12)

/-- Format `XYN`: `OP X Y N`. -/
def fmtXYN (op : BitVec 4) (x y : RegNum) (n : BitVec 4) : Word :=
  op ++ (BitVec.ofFin x ++ (BitVec.ofFin y ++ n : BitVec 8) : BitVec 12)

/-- The word of an instruction, from the patterns of R98; of an ill-formed `drw` only the low four
bits of the row count are kept. -/
def encode : Instr → Word
  | .cls => 0x00E0#16
  | .ret => 0x00EE#16
  | .jp nnn => fmtNNN 0x1#4 nnn
  | .call nnn => fmtNNN 0x2#4 nnn
  | .seImm x nn => fmtXNN 0x3#4 x nn
  | .sneImm x nn => fmtXNN 0x4#4 x nn
  | .seReg x y => fmtXYN 0x5#4 x y 0x0#4
  | .ldImm x nn => fmtXNN 0x6#4 x nn
  | .addImm x nn => fmtXNN 0x7#4 x nn
  | .ldReg x y => fmtXYN 0x8#4 x y 0x0#4
  | .orReg x y => fmtXYN 0x8#4 x y 0x1#4
  | .andReg x y => fmtXYN 0x8#4 x y 0x2#4
  | .xorReg x y => fmtXYN 0x8#4 x y 0x3#4
  | .addReg x y => fmtXYN 0x8#4 x y 0x4#4
  | .subReg x y => fmtXYN 0x8#4 x y 0x5#4
  | .shr x y => fmtXYN 0x8#4 x y 0x6#4
  | .subnReg x y => fmtXYN 0x8#4 x y 0x7#4
  | .shl x y => fmtXYN 0x8#4 x y 0xE#4
  | .sneReg x y => fmtXYN 0x9#4 x y 0x0#4
  | .ldI nnn => fmtNNN 0xA#4 nnn
  | .jpV0 nnn => fmtNNN 0xB#4 nnn
  | .rnd x nn => fmtXNN 0xC#4 x nn
  | .drw x y n => fmtXYN 0xD#4 x y (BitVec.ofNat 4 n)
  | .skp x => fmtXNN 0xE#4 x 0x9E#8
  | .sknp x => fmtXNN 0xE#4 x 0xA1#8
  | .ldVxDT x => fmtXNN 0xF#4 x 0x07#8
  | .ldVxK x => fmtXNN 0xF#4 x 0x0A#8
  | .ldDTVx x => fmtXNN 0xF#4 x 0x15#8
  | .ldSTVx x => fmtXNN 0xF#4 x 0x18#8
  | .addI x => fmtXNN 0xF#4 x 0x1E#8
  | .ldF x => fmtXNN 0xF#4 x 0x29#8
  | .ldB x => fmtXNN 0xF#4 x 0x33#8
  | .storeRegs x => fmtXNN 0xF#4 x 0x55#8
  | .loadRegs x => fmtXNN 0xF#4 x 0x65#8

/-- The two bytes of a word as they lie in memory, bits 15:8 first (R61). -/
def bytesOfWord (w : Word) : List Byte := [w.extractLsb' 8 8, w.extractLsb' 0 8]

/-- The bytes of an instruction as they lie in memory. -/
def encodeBytes (i : Instr) : List Byte := bytesOfWord (encode i)

/-- The 16-bit word of a number whose bits above `nbits` are taken as 0. -/
def tableWord (nbits w : Nat) : Word := BitVec.ofNat 16 (w % 2 ^ nbits)

/-- The instruction the decoder reads from the word `w`, numbered as spec/opcode_table.json numbers
its bits, laid out in memory as R61 says. -/
def decodeTableWord (nbits w : Nat) : Option Instr :=
  match decode (bytesOfWord (tableWord nbits w)) with
  | .instr i _ => some i
  | .illegal _ => none
  | .truncated => none

end Sys2Proof
end

