-- ==== Sys2Proof/Config.lean ====
section
/-! DEFINITION. What the spec fixes for every machine (spec/00_scope.md R6) and what it leaves open
(R7): the fixed sizes and addresses, and the free values, which are constants with no body.
The other parameters of R7 are arguments of `resetEvent`: PROGRAM, FONT_TABLE, STACK_LIMIT. The events
of R9 stand here because the schedule of later events is a free value. -/

namespace Sys2Proof.Machine

/-- A physical key identifier (R247, spec decision D31): sixteen distinguished keys, and arbitrarily
many others, all unmapped. -/
inductive PhysKey where
  | key1 | key2 | key3 | key4
  | keyQ | keyW | keyE | keyR
  | keyA | keyS | keyD | keyF
  | keyZ | keyX | keyC | keyV
  /-- Any other key of the external source. -/
  | other (id : Nat)
deriving DecidableEq, Repr

/-- The events after `Reset` (R9). -/
inductive Event where
  /-- The Interpreter runs one instruction (R90). -/
  | step
  /-- The timers count down (R245). -/
  | tick
  /-- A key goes down (`pressed`) or up (R248). -/
  | key (phys : PhysKey) (pressed : Bool)
  /-- The key-event source closes (R252). -/
  | disconnect
  /-- The presentation side reads the framebuffer (R256). -/
  | snapshot
deriving DecidableEq, Repr, Inhabited

end Sys2Proof.Machine

namespace Sys2Proof.Config

/-- MEM has 4096 bytes, addresses 0 to 4095 (R6, R60). -/
def memSize : Nat := 4096

/-- The program is loaded at, and execution starts at, 0x200 (R6, R270, R273). -/
def loadAddr : Nat := 0x200

/-- The font table starts at 0x050 (R6, R27). -/
def fontBase : Nat := 0x050

/-- The font table has 80 bytes (R6, R27). -/
def fontLen : Nat := 80

/-- The longest program image: 4096 - 0x200 = 3584 bytes (R6, R271). -/
def maxProgram : Nat := 3584

/-- The framebuffer has 64 columns (R6, R35). -/
def screenCols : Nat := 64

/-- The framebuffer has 32 rows (R6, R35). -/
def screenRows : Nat := 32

/-- FREE VALUE (R143, spec decision D24; log entry 3): the byte that the `k`-th execution of `CXNN`
draws. It has no body, so nothing is known of any draw; `State.draws` counts the draws made. -/
opaque randomByte : Nat → Byte

/-- FREE VALUE (R9, R284, spec decision D1; log entry 4): the `k`-th event of an arbitrary endless
schedule. It has no body, so no order and no fairness of the events is known. -/
opaque laterEvent : Nat → Machine.Event

/-- STEP_RATE (R7, R282; log entry 8): how often the external scheduler issues `Step`. Read by no
rule, and so by no definition of this model. -/
opaque stepRate : Nat

/-- TICK_RATE (R7, R282; log entry 8): nominally 60 Hz. Read by no rule, and so by no definition. -/
opaque tickRate : Nat

end Sys2Proof.Config
end

