-- ==== Sys2Proof/Machine/State.lean ====
section
/-! DEFINITION. The machine's state (spec/10_state.md R20), its fatal conditions (R231), the events
still to come (R9), and the state after reset (R270, R272). -/

namespace Sys2Proof.Machine

/-- The eight fatal conditions of R231: the values `HALT` takes. The machine's own way to stop: a
fatal condition is a next state with `HALT` set (R233), not a fault of the model. -/
inductive Cause where
  /-- Code 1, decode: an illegal word with first digit 5, 8, 9, E or F. -/
  | unknownOpcode
  /-- Code 2, decode: `0NNN` other than `00E0`, `00EE`. -/
  | unimplementedSys
  /-- Code 3, `00EE`: the stack is empty. -/
  | stackUnderflow
  /-- Code 4, `EX9E`, `EXA1`: `V[X] > 15`. -/
  | badKey
  /-- Code 5, `Disconnect` while parked, or `FX0A` after a disconnect. -/
  | inputDisconnected
  /-- Code 6, fetch, `DXYN`, `FX33`, `FX55`, `FX65`: an address above 4095. -/
  | memRange
  /-- Code 7, `DXYN`: row 31 is drawn with `x0 >= 57`. -/
  | fbRange
  /-- Code 8, `2NNN`: a finite `STACK_LIMIT` is reached. -/
  | stackOverflow
deriving DecidableEq, Repr

/-- The bytes of `MEM` that differ from what an unlisted address reads as, in rising address order
(`Memory.wf` in Machine/Ops.lean states the canonical form). -/
abbrev Memory := List Host.Cell

/-- The 256 bytes of `FB`, row-major, the leftmost pixel of a byte its bit 7 (R35). -/
abbrev FrameBuffer := Vector Byte 256

/-- The events that follow those already listed (R9; log entry 4): without end, under no law of the
machine (R284). -/
inductive Later where
  /-- The events `e` and then `es`, over and over. `repeating .step []` is one `Step` after another. -/
  | repeating (e : Event) (es : List Event)
  /-- FREE VALUE: any events at all, `Config.laterEvent n` the next. -/
  | free (n : Nat)
deriving DecidableEq, Repr

/-- The complete state of R20, and after it four fields of the model's own. -/
structure State where
  /-- `MEM`, 4096 bytes (R26). -/
  mem : Memory
  /-- `pc`: between two steps the address of the next instruction (R23). -/
  pc : Word
  /-- `V[0]` to `V[15]` (R21); `V[15]` is also the flag `VF` (R24). -/
  v : Vector Byte 16
  /-- `I`, the index register (R25). -/
  i : Word
  /-- `STACK`, the newest entry first (R31). -/
  stack : List Word
  /-- `DT`, the delay timer (R33). -/
  dt : Byte
  /-- `ST`, the sound timer (R33). -/
  st : Byte
  /-- `KEYS`, the held mask: bit `k` is logical key `k` (R34). -/
  keys : Word
  /-- `FB` (R35). -/
  fb : FrameBuffer
  /-- `WAIT`: `some x` while an `FX0A` naming `V[x]` waits (R38). -/
  wait : Option RegNum
  /-- `HALT`: the fatal condition that stopped the Interpreter (R40). -/
  halt : Option Cause
  /-- `INPUT_OPEN`: the key-event source is connected (R42). -/
  inputOpen : Bool
  /-- MODEL'S OWN (log entry 2): the parameter STACK_LIMIT (R7, R32), `none` for unbounded; no step
  changes it. -/
  stackLimit : Option Nat
  /-- MODEL'S OWN (log entry 3): how many random bytes `CXNN` has drawn (R143). -/
  draws : Nat
  /-- MODEL'S OWN (log entry 4): the next events to come, the next first. -/
  schedule : List Event
  /-- MODEL'S OWN (log entry 4): the events that come when `schedule` is empty. -/
  later : Later
deriving DecidableEq, Repr

/-- The faults of the model: none. Every stop the spec describes is a fatal condition, which is a
next state with `HALT` set (R233), so no step of this model raises a fault (log entry 6). -/
inductive Fault where
deriving DecidableEq, Repr

/-- The refusals of the model. -/
inductive Refusal where
  /-- Raised only by an arm of `exec` whose instruction has no meaning yet; no arm is such. Safe. -/
  | notModelled (mnemonic : String)
  /-- Raised by `resetEvent` for a program image longer than 3584 bytes: the machine does not start
  and no state is defined (R271). Safe: no execution exists. -/
  | programTooLong
deriving DecidableEq, Repr

/-- What one step, or one event, answers. -/
abbrev Answer := Host.Outcome State Fault Refusal

/-- The machine right after `Reset` with every parameter at its default and an empty PROGRAM
(R270, R272; log entry 1 for the values the source document leaves open). No memory byte is listed:
an unlisted address reads as the reset contents. -/
def State.reset : State where
  mem := []
  pc := 0x0200#16
  v := Vector.replicate 16 0#8
  i := 0x0000#16
  stack := []
  dt := 0#8
  st := 0#8
  keys := 0x0000#16
  fb := Vector.replicate 256 0#8
  wait := none
  halt := none
  inputOpen := true
  stackLimit := none
  draws := 0
  schedule := []
  later := .repeating .step []

end Sys2Proof.Machine
end

