-- ==== Sys2Proof/Machine/Framebuffer.lean ====
section
/-! DEFINITION. The framebuffer's operations (spec/43_display.md R180 to R187): `clear()`, and
`draw`, pixel by pixel as the rule writes it. -/

namespace Sys2Proof.Machine

/-- `FbBit(p)`: pixel `p = 64 row + column` is bit `7 - (p mod 8)` of byte `p div 8` (R35, R181). -/
def FrameBuffer.bit (fb : FrameBuffer) (p : Nat) : Bool :=
  (fb[p / 8]?.getD 0#8).getLsbD (7 - p % 8)

/-- `FbFlip(p)`: invert pixel `p`, leave every other bit as it was (R181). It is never applied to
`p > 2047`, where it changes nothing. -/
def FrameBuffer.flip (fb : FrameBuffer) (p : Nat) : FrameBuffer :=
  fb.setIfInBounds (p / 8) (fb[p / 8]?.getD 0#8 ^^^ BitVec.twoPow 8 (7 - p % 8))

/-- `clear()` zeroes all bits (R185). -/
def FrameBuffer.clear : FrameBuffer := Vector.replicate 256 0#8

/-- A framebuffer being drawn on, and whether a set pixel has been turned off so far. -/
abbrev Canvas := FrameBuffer × Bool

/-- One set sprite bit at pixel `p` (R186): a collision if the pixel was set, then the flip. -/
def drawPixel (p : Nat) (cv : Canvas) : Canvas := (cv.1.flip p, cv.2 || cv.1.bit p)

/-- The sprite bits of the row byte `b` at the column offsets `c`, from pixel `p` on: bit `7 - c` is
the pixel at offset `c` (R183). -/
def drawBits (b : Byte) (p : Nat) : List Nat → Canvas → Canvas
  | [], cv => cv
  | c :: cs, cv => drawBits b p cs (if b.getLsbD (7 - c) then drawPixel (p + c) cv else cv)

/-- One sprite row whose offset 0 lies at pixel `p`; bits past column 63 go to the next row's pixels
(R184, R186). -/
def drawRow (b : Byte) (p : Nat) (cv : Canvas) : Canvas := drawBits b p (List.range 8) cv

/-- The sprite rows, top row first, each 64 pixels after the one above it (R186). -/
def drawRows : List Byte → Nat → Canvas → Canvas
  | [], _, cv => cv
  | b :: bs, p, cv => drawRows bs (p + Config.screenCols) (drawRow b p cv)

/-- `draw(x0, y0, sprite_bytes) -> collided` for the rows to be drawn (R180, R186). -/
def FrameBuffer.draw (fb : FrameBuffer) (x0 y0 : Nat) (rows : List Byte) : Canvas :=
  drawRows rows (Config.screenCols * y0 + x0) (fb, false)

end Sys2Proof.Machine
end

