-- ==== Sys2Proof/Machine/Ops.lean ====
section
/-! DEFINITION. The named operations over memory and registers, and the fatal condition, the
machine's one kind of exception (spec/20_memory.md, spec/10_state.md, spec/60_exceptions.md). -/

namespace Sys2Proof.Machine

/-! ## Memory -/

/-- What an unlisted address reads as: the reset contents with the default FONT_TABLE, the font at
0x050 to 0x09F and 0 elsewhere (R26, R68, R270; log entry 1). -/
def unlisted (a : Nat) : Byte :=
  if Config.fontBase ≤ a then defaultFont[a - Config.fontBase]?.getD 0#8 else 0#8

/-- The byte at address `a` (R63, within the range check of `inRange`). -/
def Memory.read (m : Memory) (a : Nat) : Byte :=
  match m with
  | [] => unlisted a
  | c :: m => if c.1 = a then c.2 else Memory.read m a

/-- Put a listed byte in its place by address. -/
def Memory.insert (a : Nat) (b : Byte) : Memory → Memory
  | [] => [(a, b)]
  | c :: m => if a < c.1 then (a, b) :: c :: m else c :: Memory.insert a b m

/-- Store a byte at address `a` (R64). Writing the byte an unlisted address reads as removes the
entry. It is never applied to `a > 4095`, where it changes nothing. -/
def Memory.write (m : Memory) (a : Nat) (b : Byte) : Memory :=
  if a < Config.memSize then
    let rest := m.filter (fun c => c.1 != a)
    if b = unlisted a then rest else Memory.insert a b rest
  else m

/-- The canonical form: addresses below 4096, strictly rising, and no entry equal to what its
address reads as unlisted. Equal memories are then equal lists. -/
abbrev Memory.wf (m : Memory) : Prop :=
  m.Pairwise (fun c d => c.1 < d.1) ∧ ∀ c ∈ m, c.1 < Config.memSize ∧ c.2 ≠ unlisted c.1

/-- The `n` bytes from address `a` on, in ascending order. -/
def Memory.readBytes (m : Memory) (a : Nat) : Nat → List Byte
  | 0 => []
  | n + 1 => m.read a :: Memory.readBytes m (a + 1) n

/-- Store the bytes from address `a` on, in ascending order. -/
def Memory.writeBytes (m : Memory) (a : Nat) : List Byte → Memory
  | [] => m
  | b :: bs => Memory.writeBytes (m.write a b) (a + 1) bs

/-- The whole range of an access of `n` bytes from `a` lies in memory (R65). The sum is on natural
numbers: nothing wraps (R60). -/
def inRange (a n : Nat) : Bool := decide (a + n ≤ Config.memSize)

/-! ## Registers: one home for each, read and written here -/

/-- Read `V[r]` (R12, R21). -/
def State.reg (s : State) (r : RegNum) : Byte := s.v[r]

/-- `V[r] <- b` (R12). -/
def State.setReg (s : State) (r : RegNum) (b : Byte) : State := { s with v := s.v.set r b }

/-- `V[r], V[r + 1], … <- bs`, ascending; bytes past `V[15]` are dropped (none ever is). -/
def setRegsFrom (v : Vector Byte 16) (r : Nat) : List Byte → Vector Byte 16
  | [] => v
  | b :: bs => setRegsFrom (v.setIfInBounds r b) (r + 1) bs

/-- Load `V[0], V[1], …` from the bytes (R166). -/
def State.loadRegsFrom (s : State) (bs : List Byte) : State := { s with v := setRegsFrom s.v 0 bs }

/-- `V[0] .. V[x]`, in order (R165). -/
def State.regsUpTo (s : State) (x : RegNum) : List Byte := s.v.toList.take (x.val + 1)

/-- The flag register `VF` is `V[15]` (R24). -/
def vf : RegNum := 15

/-- `pc <- target` (R12). -/
def State.setPc (s : State) (target : Word) : State := { s with pc := target }

/-- `pc <- (pc + 2) mod 2^16`: the advance of every step, and again for a skip (R23, R90, R92). -/
def State.advance (s : State) : State := { s with pc := s.pc + 2#16 }

/-- `I <- a` (R25). -/
def State.setIndex (s : State) (a : Word) : State := { s with i := a }

/-- `push(STACK, a)` (R12, R31). -/
def State.push (s : State) (a : Word) : State := { s with stack := a :: s.stack }

/-- What `STACK` holds below its newest entry, which `pop(STACK)` removes (R12, R31). -/
def State.setStack (s : State) (entries : List Word) : State := { s with stack := entries }

/-- `DT <- b` (R33). -/
def State.setDelay (s : State) (b : Byte) : State := { s with dt := b }

/-- `ST <- b` (R33). -/
def State.setSound (s : State) (b : Byte) : State := { s with st := b }

/-- `KEYS <- m` (R34). -/
def State.setKeys (s : State) (m : Word) : State := { s with keys := m }

/-- `FB <- fb` (R35). -/
def State.setFrame (s : State) (fb : FrameBuffer) : State := { s with fb := fb }

/-- `WAIT <- key(x)` (R38). -/
def State.park (s : State) (x : RegNum) : State := { s with wait := some x }

/-- `WAIT <- none` (R38). -/
def State.unpark (s : State) : State := { s with wait := none }

/-- `INPUT_OPEN <- 0` (R42). -/
def State.closeInput (s : State) : State := { s with inputOpen := false }

/-- `HALT <- cause` (R40). -/
def State.setHalt (s : State) (c : Cause) : State := { s with halt := some c }

/-- `MEM[a], MEM[a + 1], … <- bs` (R62, R64). -/
def State.storeBytes (s : State) (a : Nat) (bs : List Byte) : State :=
  { s with mem := s.mem.writeBytes a bs }

/-- The random byte of the next draw (R143; log entry 3). -/
def State.drawn (s : State) : Byte := Config.randomByte s.draws

/-- One draw has been made. -/
def State.countDraw (s : State) : State := { s with draws := s.draws + 1 }

/-! ## The fatal condition -/

/-- `raise Halt(cause)` (R12, R233): the machine's one exception. `HALT` records the cause and
nothing else is written: no vector, no saved pc, no saved status, no mode; `pc` stays where the step
has left it. There is no return from it (R235), so none stands beside it: only `Reset` clears
`HALT`. -/
def raiseHalt (c : Cause) (s : State) : Answer := .next (s.setHalt c)

/-- The whole-range check that precedes every access of an instruction (R63, R64, R65): go on with
`k` if the `n` bytes from `a` are in memory, else the fatal condition `MemRange`. -/
def checkRange (a n : Nat) (s : State) (k : State → Answer) : Answer :=
  if inRange a n then k s else raiseHalt .memRange s

/-- The fatal condition an illegal word raises (R100, R231). -/
def causeOfIllegal : Illegal → Cause
  | .unimplementedSys => .unimplementedSys
  | .unknownOpcode => .unknownOpcode

/-- The number of a cause (R231, spec decision D14): a label only. -/
def causeCode : Cause → Nat
  | .unknownOpcode => 1
  | .unimplementedSys => 2
  | .stackUnderflow => 3
  | .badKey => 4
  | .inputDisconnected => 5
  | .memRange => 6
  | .fbRange => 7
  | .stackOverflow => 8

end Sys2Proof.Machine
end

