-- ==== Sys2Proof/Machine/Flags.lean ====
section
/-! DEFINITION. The flag computations: every value `VF` takes (spec/10_state.md R24, spec/41_alu.md
R138 to R144), and the order of the two writes (R131). -/

namespace Sys2Proof.Machine

/-- A flag is the byte 0 or 1 (R24). -/
def flagByte (c : Bool) : Byte := if c then 1#8 else 0#8

/-- `8XY4`: 1 iff the unsigned sum exceeds 255 (R138). -/
def carryFlag (a b : Byte) : Byte := flagByte (decide (255 < a.toNat + b.toNat))

/-- `8XY5` on `a - b` and `8XY7` on `b - a`: 1 iff the minuend is at least the subtrahend, no borrow
(R139, R141). -/
def noBorrowFlag (minuend subtrahend : Byte) : Byte :=
  flagByte (decide (subtrahend.toNat ≤ minuend.toNat))

/-- `8XY6`: the bit shifted out, bit 0 (R140). -/
def lowBitFlag (a : Byte) : Byte := flagByte (a.getLsbD 0)

/-- `8XYE`: the bit shifted out, bit 7, normalized to 0 or 1 (R142). -/
def highBitFlag (a : Byte) : Byte := flagByte (a.getLsbD 7)

/-- `DXYN`: 1 iff a set pixel was turned off (R186). -/
def collisionFlag (collided : Bool) : Byte := flagByte collided

/-- Result to `V[X]` first, flag to `V[15]` last: with `X = 0xF` the flag stays (R131). -/
def State.resultThenFlag (s : State) (x : RegNum) (result flag : Byte) : State :=
  (s.setReg x result).setReg vf flag

/-- Flag to `V[15]` first, then `V[X]` from what `V[X]` holds by then: with `X = 0xF` the operation
reads the flag just written (R131, R140). -/
def State.flagThenResult (s : State) (x : RegNum) (flag : Byte) (result : Byte → Byte) : State :=
  let s' := s.setReg vf flag
  s'.setReg x (result (s'.reg x))

end Sys2Proof.Machine
end

