-- ==== Sys2Proof/Machine/Alu.lean ====
section
/-! DEFINITION. Register loads, arithmetic, logic, shifts and random (spec/41_alu.md). Addition and
subtraction wrap modulo 256 (R130). -/

namespace Sys2Proof.Machine

/-- `6XNN` (R132). -/
def execLdImm (x : RegNum) (nn : Byte) (s : State) : Answer := .next (s.setReg x nn)

/-- `7XNN` (R133): no flag. -/
def execAddImm (x : RegNum) (nn : Byte) (s : State) : Answer := .next (s.setReg x (s.reg x + nn))

/-- `8XY0` (R134). -/
def execLdReg (x y : RegNum) (s : State) : Answer := .next (s.setReg x (s.reg y))

/-- `8XY1` (R135): no flag. -/
def execOrReg (x y : RegNum) (s : State) : Answer := .next (s.setReg x (s.reg x ||| s.reg y))

/-- `8XY2` (R136): no flag. -/
def execAndReg (x y : RegNum) (s : State) : Answer := .next (s.setReg x (s.reg x &&& s.reg y))

/-- `8XY3` (R137): no flag. -/
def execXorReg (x y : RegNum) (s : State) : Answer := .next (s.setReg x (s.reg x ^^^ s.reg y))

/-- `8XY4` (R138). -/
def execAddReg (x y : RegNum) (s : State) : Answer :=
  let a := s.reg x
  let b := s.reg y
  .next (s.resultThenFlag x (a + b) (carryFlag a b))

/-- `8XY5` (R139). -/
def execSubReg (x y : RegNum) (s : State) : Answer :=
  let a := s.reg x
  let b := s.reg y
  .next (s.resultThenFlag x (a - b) (noBorrowFlag a b))

/-- `8XY6` (R140): the flag is written first; the field `y` is ignored. -/
def execShr (x _y : RegNum) (s : State) : Answer :=
  .next (s.flagThenResult x (lowBitFlag (s.reg x)) (fun a => a >>> 1))

/-- `8XY7` (R141). -/
def execSubnReg (x y : RegNum) (s : State) : Answer :=
  let a := s.reg x
  let b := s.reg y
  .next (s.resultThenFlag x (b - a) (noBorrowFlag b a))

/-- `8XYE` (R142): the field `y` is ignored. -/
def execShl (x _y : RegNum) (s : State) : Answer :=
  let a := s.reg x
  .next (s.resultThenFlag x (a <<< 1) (highBitFlag a))

/-- `CXNN` (R143): a fresh draw, masked. -/
def execRnd (x : RegNum) (nn : Byte) (s : State) : Answer :=
  .next ((s.setReg x (s.drawn &&& nn)).countDraw)

end Sys2Proof.Machine
end

