-- ==== Sys2Proof/Machine/Operands.lean ====
section
/-! DEFINITION. The operand forms (spec/30_encoding.md R94, R95; spec/42_index_memory.md R160): the
zero-extended immediates, the index-register address, the font glyph, the BCD digits, the sprite
origin and the key number. -/

namespace Sys2Proof.Machine

/-- `zext_16(NNN)`: a 12-bit address as a 16-bit value (R94). -/
def zextAddr (nnn : BitVec 12) : Word := nnn.setWidth 16

/-- `zext_16(b)`: a byte as a 16-bit value (R11). -/
def zextByte (b : Byte) : Word := b.setWidth 16

/-- The effective address `I + 0`; the `k`-th byte of an access is at `indexAddr s + k`, a natural
number that never wraps (R160). -/
def indexAddr (s : State) : Nat := s.i.toNat

/-- `font base + 5 Vx`, with no mask on `Vx` (R163, spec decision D29). -/
def glyphAddr (b : Byte) : Word := BitVec.ofNat 16 (Config.fontBase + 5 * b.toNat)

/-- The decimal digits of a byte, hundreds first (R164). -/
def bcdDigits (b : Byte) : List Byte :=
  [BitVec.ofNat 8 (b.toNat / 100), BitVec.ofNat 8 (b.toNat / 10 % 10), BitVec.ofNat 8 (b.toNat % 10)]

/-- `x0 = V[X] mod 64` (R182). -/
def originCol (s : State) (x : RegNum) : Nat := (s.reg x).toNat % Config.screenCols

/-- `y0 = V[Y] mod 32` (R182). -/
def originRow (s : State) (y : RegNum) : Nat := (s.reg y).toNat % Config.screenRows

/-- How many sprite rows are drawn: `min(N, 32 - y0)` (R184). -/
def rowsDrawn (n y0 : Nat) : Nat := min n (Config.screenRows - y0)

/-- Row 31 is drawn and its bits could spill past the framebuffer (R186, spec decision D8). -/
def spillsOut (x0 y0 n : Nat) : Bool :=
  decide (1 ≤ rowsDrawn n y0 ∧ y0 + rowsDrawn n y0 = Config.screenRows ∧ 57 ≤ x0)

/-- Logical key `k` is held: `KEYS[k] = 1` (R34). -/
def keyHeld (s : State) (k : Nat) : Bool := s.keys.getLsbD k

/-- Add 2 to `pc` a second time when the condition holds (R92, R115). -/
def skipIf (c : Bool) (s : State) : State := if c then s.advance else s

end Sys2Proof.Machine
end

