-- ==== Sys2Proof/Machine/Control.lean ====
section
/-! DEFINITION. Control transfer (spec/40_control_flow.md): return, jumps, call and skips. In every
meaning `pc` is the value after the advance of the step (R110). -/

namespace Sys2Proof.Machine

/-- `1NNN` (R111). -/
def execJp (nnn : BitVec 12) (s : State) : Answer := .next (s.setPc (zextAddr nnn))

/-- `00EE` (R112): pop the return address; `StackUnderflow` when there is none. -/
def execRet (s : State) : Answer :=
  match s.stack with
  | [] => raiseHalt .stackUnderflow s
  | a :: rest => .next ((s.setStack rest).setPc a)

/-- The stack holds as many entries as a finite `STACK_LIMIT` allows (R113). -/
def stackFull (s : State) : Bool :=
  match s.stackLimit with
  | none => false
  | some l => decide (s.stack.length = l)

/-- `2NNN` (R113): push the address of the following instruction and jump. -/
def execCall (nnn : BitVec 12) (s : State) : Answer :=
  if stackFull s then raiseHalt .stackOverflow s
  else .next ((s.push s.pc).setPc (zextAddr nnn))

/-- `BNNN` (R114): the sum is not reduced modulo 4096, and `V[0]` is the register added. -/
def execJpV0 (nnn : BitVec 12) (s : State) : Answer :=
  .next (s.setPc (zextByte (s.reg 0) + zextAddr nnn))

/-- `3XNN` (R115). -/
def execSeImm (x : RegNum) (nn : Byte) (s : State) : Answer :=
  .next (skipIf (decide (s.reg x = nn)) s)

/-- `4XNN` (R116). -/
def execSneImm (x : RegNum) (nn : Byte) (s : State) : Answer :=
  .next (skipIf (decide (s.reg x ≠ nn)) s)

/-- `5XY0` (R117). -/
def execSeReg (x y : RegNum) (s : State) : Answer :=
  .next (skipIf (decide (s.reg x = s.reg y)) s)

/-- `9XY0` (R118). -/
def execSneReg (x y : RegNum) (s : State) : Answer :=
  .next (skipIf (decide (s.reg x ≠ s.reg y)) s)

end Sys2Proof.Machine
end

