-- ==== Sys2Proof/Machine/Display.lean ====
section
/-! DEFINITION. The display instructions (spec/43_display.md R185, R186). -/

namespace Sys2Proof.Machine

/-- `00E0` (R185). -/
def execCls (s : State) : Answer := .next (s.setFrame FrameBuffer.clear)

/-- The drawing of `DXYN` once its checks have passed (R186): the coordinates are read before any
write, the flag is written last. -/
def drawSprite (x y : RegNum) (n : Nat) (s : State) : State :=
  let x0 := originCol s x
  let y0 := originRow s y
  let cv := s.fb.draw x0 y0 (s.mem.readBytes (indexAddr s) (rowsDrawn n y0))
  (s.setFrame cv.1).setReg vf (collisionFlag cv.2)

/-- `DXYN` (R186): `MemRange` before `FbRange` (R234), then the drawing. -/
def execDrw (x y : RegNum) (n : Nat) (s : State) : Answer :=
  checkRange (indexAddr s) n s fun s =>
    if spillsOut (originCol s x) (originRow s y) n then raiseHalt .fbRange s
    else .next (drawSprite x y n s)

end Sys2Proof.Machine
end

