-- ==== Sys2Proof/Machine/Index.lean ====
section
/-! DEFINITION. Index register, BCD store, register dump and load (spec/42_index_memory.md). No
instruction changes `I` as a side effect of an access (R160). -/

namespace Sys2Proof.Machine

/-- `ANNN` (R161). -/
def execLdI (nnn : BitVec 12) (s : State) : Answer := .next (s.setIndex (zextAddr nnn))

/-- `FX1E` (R162): wraps at 16 bits; no flag. -/
def execAddI (x : RegNum) (s : State) : Answer := .next (s.setIndex (s.i + zextByte (s.reg x)))

/-- `FX29` (R163). -/
def execLdF (x : RegNum) (s : State) : Answer := .next (s.setIndex (glyphAddr (s.reg x)))

/-- `FX33` (R164). -/
def execLdB (x : RegNum) (s : State) : Answer :=
  checkRange (indexAddr s) 3 s fun s => .next (s.storeBytes (indexAddr s) (bcdDigits (s.reg x)))

/-- `FX55` (R165). -/
def execStoreRegs (x : RegNum) (s : State) : Answer :=
  checkRange (indexAddr s) (x.val + 1) s fun s =>
    .next (s.storeBytes (indexAddr s) (s.regsUpTo x))

/-- `FX65` (R166). -/
def execLoadRegs (x : RegNum) (s : State) : Answer :=
  checkRange (indexAddr s) (x.val + 1) s fun s =>
    .next (s.loadRegsFrom (s.mem.readBytes (indexAddr s) (x.val + 1)))

end Sys2Proof.Machine
end

