-- ==== Sys2Proof/Machine/KeysTimers.lean ====
section
/-! DEFINITION. Key tests, the blocking key wait, and timer access (spec/44_keys_timers.md). -/

namespace Sys2Proof.Machine

/-- A key test on `V[X]` (R201, R202, R203): a value above 15 is the fatal condition `BadKey`, else
skip when the key's held bit is `want`. -/
def testKey (x : RegNum) (want : Bool) (s : State) : Answer :=
  if (s.reg x).toNat > 15 then raiseHalt .badKey s
  else .next (skipIf (keyHeld s (s.reg x).toNat == want) s)

/-- `EX9E` (R201). -/
def execSkp (x : RegNum) (s : State) : Answer := testKey x true s

/-- `EXA1` (R202). -/
def execSknp (x : RegNum) (s : State) : Answer := testKey x false s

/-- `FX0A` (R204, R205): park until a `Key` event completes it (Machine/Events.lean `offerKey`). -/
def execLdVxK (x : RegNum) (s : State) : Answer :=
  if s.inputOpen then .next (s.park x) else raiseHalt .inputDisconnected s

/-- `FX07` (R206). -/
def execLdVxDT (x : RegNum) (s : State) : Answer := .next (s.setReg x s.dt)

/-- `FX15` (R207). -/
def execLdDTVx (x : RegNum) (s : State) : Answer := .next (s.setDelay (s.reg x))

/-- `FX18` (R208). -/
def execLdSTVx (x : RegNum) (s : State) : Answer := .next (s.setSound (s.reg x))

end Sys2Proof.Machine
end

