-- ==== Sys2Proof/Machine/Events.lean ====
section
/-! DEFINITION. The events of the other agents (spec/60_exceptions.md R245 to R256) and of the reset
(spec/70_reset_and_hazards.md R270, R271). -/

namespace Sys2Proof.Machine

/-- One timer's decrement, floor 0 (R245). -/
def countDown (b : Byte) : Byte := if b = 0#8 then 0#8 else b - 1#8

/-- `Tick` (R245). -/
def tick (s : State) : State := (s.setDelay (countDown s.dt)).setSound (countDown s.st)

/-- `map(phys)` (R247): the fixed key map; every other physical key is unmapped. -/
def keyMap : PhysKey → Option RegNum
  | .key1 => some 0x1
  | .key2 => some 0x2
  | .key3 => some 0x3
  | .key4 => some 0xC
  | .keyQ => some 0x4
  | .keyW => some 0x5
  | .keyE => some 0x6
  | .keyR => some 0xD
  | .keyA => some 0x7
  | .keyS => some 0x8
  | .keyD => some 0x9
  | .keyF => some 0xE
  | .keyZ => some 0xA
  | .keyX => some 0x0
  | .keyC => some 0xB
  | .keyV => some 0xF
  | .other _ => none

/-- A logical key number as the byte a register receives (R204). -/
def keyByte (k : RegNum) : Byte := BitVec.ofNat 8 k.val

/-- The held mask after a transition of logical key `k` (R248). -/
def updateKeys (m : Word) (k : RegNum) (pressed : Bool) : Word :=
  if pressed then m ||| BitVec.twoPow 16 k.val else m &&& ~~~ BitVec.twoPow 16 k.val

/-- The rendezvous offer (R249): a press of a mapped key completes a waiting `FX0A`; anything else is
discarded. -/
def offerKey (k : Option RegNum) (pressed : Bool) (s : State) : State :=
  match s.wait, k, pressed with
  | some x, some k, true => (s.setReg x (keyByte k)).unpark
  | some _, some _, false => s
  | some _, none, _ => s
  | none, _, _ => s

/-- `Key(phys, pressed)` (R248): the mask update and the offer, one atomic event. -/
def keyEvent (phys : PhysKey) (pressed : Bool) (s : State) : State :=
  let s' :=
    match keyMap phys with
    | some k => s.setKeys (updateKeys s.keys k pressed)
    | none => s
  offerKey (keyMap phys) pressed s'

/-- `Disconnect` (R252): the fatal condition `InputDisconnected` for a waiting `FX0A`. -/
def disconnect (s : State) : State :=
  let s' := s.closeInput
  if s.wait.isSome && s.halt.isNone then s'.unpark.setHalt .inputDisconnected else s'

/-- `Snapshot` (R256): the 256 bytes of `FB`; it changes no state. -/
def snapshot (s : State) : FrameBuffer := s.fb

/-- The fatal-condition indication, readable from outside the block (R10, R40). -/
def haltIndication (s : State) : Option Cause := s.halt

/-- `Reset(PROGRAM)` with the parameters of R7 (R270): FONT_TABLE, STACK_LIMIT, PROGRAM, and the
model's events to come (log entry 4). An image longer than 3584 bytes is refused (R271).
The font has 80 bytes by its type. -/
def resetEvent (font : Vector Byte 80) (limit : Option Nat) (program : List Byte)
    (schedule : List Event) (later : Later) : Answer :=
  if Config.maxProgram < program.length then .refused .programTooLong
  else
    .next { ((State.reset.storeBytes Config.fontBase font.toList).storeBytes Config.loadAddr program)
      with stackLimit := limit, schedule := schedule, later := later }

end Sys2Proof.Machine
end

