-- ==== Sys2Proof/Machine/Cycle.lean ====
section
/-! DEFINITION. The step cycle (spec/30_encoding.md R90, R91), which events are enabled (R9), and the
run of one event. -/

namespace Sys2Proof.Machine

/-- The word the step fetches: the bytes at `pc` and `pc + 1`, big-endian (R61, R90). -/
def fetchWord (s : State) : Word := wordOfBytes (s.mem.read s.pc.toNat) (s.mem.read (s.pc.toNat + 1))

/-- `Step` is enabled: not halted and not parked (R9, R38, R40). -/
def stepEnabled (s : State) : Bool := s.halt.isNone && s.wait.isNone

/-- After the fetch (R90): the advance first, then the instruction or the fatal condition of an
illegal word. -/
def execFetched (d : Decoded) (s : State) : Answer :=
  match d with
  | .instr i => exec i s.advance
  | .illegal c => raiseHalt (causeOfIllegal c) s.advance

/-- The `Step` event (R90, R91): a fetch past the end of memory is `MemRange`, with `pc` not
advanced. -/
def runStep (s : State) : Answer :=
  checkRange s.pc.toNat 2 s fun s => execFetched (decodeWord (fetchWord s)) s

/-- Which events are enabled (R9). -/
def enabled (e : Event) (s : State) : Bool :=
  match e with
  | .step => stepEnabled s
  | .tick => true
  | .key _ _ => s.inputOpen
  | .disconnect => s.inputOpen
  | .snapshot => true

/-- What an enabled event does. -/
def eventEffect (e : Event) (s : State) : Answer :=
  match e with
  | .step => runStep s
  | .tick => .next (tick s)
  | .key phys pressed => .next (keyEvent phys pressed s)
  | .disconnect => .next (disconnect s)
  | .snapshot => .next s

/-- One event: a request for one that is not enabled has no effect and is not remembered (R260, spec
decision D20, for `Step`; log entry 5 for `Key` and `Disconnect`). -/
def runEvent (e : Event) (s : State) : Answer :=
  if enabled e s then eventEffect e s else .next s

/-- The next event, and the state with that event taken off the schedule (log entry 4). -/
def nextEvent (s : State) : Event × State :=
  match s.schedule, s.later with
  | e :: rest, _ => (e, { s with schedule := rest })
  | [], .repeating e es => (e, { s with schedule := es })
  | [], .free n => (Config.laterEvent n, { s with later := .free (n + 1) })

end Sys2Proof.Machine
end

