-- ==== Sys2Proof/Machine/Step.lean ====
section
/-! DEFINITION. The one step of the machine: it runs the next event of the schedule (R9). -/

namespace Sys2Proof.Machine

/-- One step: the next event, whichever the schedule names (log entry 4). -/
def step (s : State) : Host.Outcome State Fault Refusal := runEvent (nextEvent s).1 (nextEvent s).2

/-- The state with the instruction word `w` stored at `pc` and the Interpreter free to fetch it: not
halted, not parked, its `Step` the next event (log entry 7). -/
def State.withFetchWord (s : State) (nbits w : Nat) : State :=
  { s.storeBytes s.pc.toNat (bytesOfWord (tableWord nbits w))
    with wait := none, halt := none, schedule := .step :: s.schedule }

end Sys2Proof.Machine
end

