-- ==== Sys2Proof/Safety.lean ====
section
/-! DEFINITION. The terms that claims about the machine use: halted, parked, the invariant of every
reachable state, and what each instruction may write, read off the tables of spec/10_state.md R20,
R22, R25 and spec/60_exceptions.md R231. -/

namespace Sys2Proof.Machine

/-- Halted: a fatal condition stopped the Interpreter (R16, R40). -/
abbrev State.Halted (s : State) : Prop := s.halt ≠ none

/-- Parked: an `FX0A` waits for a key (R16, R38). -/
abbrev State.Parked (s : State) : Prop := s.wait ≠ none

/-- Running: a `Step` is enabled (R9). -/
abbrev State.Running (s : State) : Prop := s.halt = none ∧ s.wait = none

/-- A safe run takes no fatal condition: the state is not halted (R236, R262). -/
abbrev State.Safe (s : State) : Prop := s.halt = none

/-- The invariant of every reachable state. -/
structure State.Inv (s : State) : Prop where
  /-- Memory is in its canonical form. -/
  mem_wf : s.mem.wf
  /-- `pc` never passes the largest target of `BNNN` (R23, R114). -/
  pc_le : s.pc.toNat ≤ 0x10FE
  /-- Every return address is a `pc` after the advance of a fetched call (R32). -/
  return_addr : ∀ a ∈ s.stack, 2 ≤ a.toNat ∧ a.toNat ≤ 4096
  /-- The stack is never deeper than a finite STACK_LIMIT (R32, R113). -/
  depth_le : ∀ l, s.stackLimit = some l → s.stack.length ≤ l
  /-- A parked Interpreter is not halted, and its key source is open (R38, R205, R252). -/
  parked_live : s.wait ≠ none → s.halt = none ∧ s.inputOpen = true

/-- The next event of `s` is `e`, taken in the state `s0`, from which nothing but that event is gone:
it is the first one listed, or none is listed and it is the first of the repeated ones or the next
free one (log entry 4). -/
def EventComesNext (e : Event) (s s0 : State) : Prop :=
  (s.schedule = e :: s0.schedule ∧ s0 = { s with schedule := s0.schedule }) ∨
  (s.schedule = [] ∧ s.later = .repeating e s0.schedule ∧ s0 = { s with schedule := s0.schedule }) ∨
  (s.schedule = [] ∧ ∃ n, s.later = .free n ∧ Config.laterEvent n = e ∧
    s0 = { s with later := .free (n + 1) })

/-- The next event of `s` is a `Step`, taken in the state `s0`. -/
abbrev StepComesNext (s s0 : State) : Prop := EventComesNext .step s s0

/-- The next step of `s` executes the instruction `i`: a `Step` comes, is enabled, and fetches the
word of `i` (R90). -/
def Executes (s : State) (i : Instr) : Prop :=
  ∃ s0, StepComesNext s s0 ∧ s0.Running ∧ s0.pc.toNat ≤ 4094 ∧ decodeWord (fetchWord s0) = .instr i

/-- The event at place `k` (from 0) of the events listed and those that follow them. -/
def eventAt : Nat → List Event → Later → Event
  | 0, e :: _, _ => e
  | k + 1, _ :: rest, l => eventAt k rest l
  | 0, [], .repeating e _ => e
  | k + 1, [], .repeating e es => eventAt k es (.repeating e es)
  | k, [], .free n => Config.laterEvent (n + k)

/-- The event at place `k` of the events to come. -/
def State.eventAt (s : State) (k : Nat) : Event := Machine.eventAt k s.schedule s.later

/-- How many of the next `m` events are a `Tick`. -/
def State.ticksIn (s : State) (m : Nat) : Nat :=
  (List.range m).countP fun k => decide (s.eventAt k = .tick)

/-! The premises of R284 about the events to come, none of which the machine guarantees. -/

/-- The step scheduler keeps issuing steps (R284). -/
def State.StepsKeepComing (s : State) : Prop := ∀ n, ∃ k, n ≤ k ∧ s.eventAt k = .step

/-- Ticks keep coming (R284). -/
def State.TicksKeepComing (s : State) : Prop := ∀ n, ∃ k, n ≤ k ∧ s.eventAt k = .tick

/-- A press of a mapped key, or a disconnect, comes (R284). -/
def State.WakeComes (s : State) : Prop :=
  ∃ k, s.eventAt k = .disconnect ∨ ∃ phys, s.eventAt k = .key phys true ∧ keyMap phys ≠ none

/-- `DXYN` at `s` names pixel `q` with a set sprite bit: bit `7 - c` of the `r`-th sprite byte, for a
row `r` that is drawn, is pixel `64 (y0 + r) + x0 + c` (R182, R183, R184, R186). -/
def spriteSets (s : State) (x y : RegNum) (n q : Nat) : Prop :=
  ∃ r c, r < n ∧ (s.reg y).toNat % 32 + r ≤ 31 ∧ c < 8 ∧
    q = 64 * ((s.reg y).toNat % 32 + r) + (s.reg x).toNat % 64 + c ∧
    (s.mem.read (s.i.toNat + r)).getLsbD (7 - c) = true

/-- The condition of `FbRange` in the rule's words: row 31 is among the rows drawn and `x0 >= 57`
(R186). -/
def spriteSpillsOut (s : State) (x y : RegNum) (n : Nat) : Prop :=
  1 ≤ n ∧ 32 ≤ (s.reg y).toNat % 32 + n ∧ 57 ≤ (s.reg x).toNat % 64

/-- The byte-wise form of one drawn row (R187), as the pixels it flips and the collision it reports. -/
def bytewiseRow (b : Byte) (x0 row : Nat) (cv : Canvas) : Canvas :=
  let sh := x0 % 8
  let j := 8 * row + x0 / 8
  let left := b >>> sh
  let right := if sh = 0 then 0#8 else b <<< (8 - sh)
  let old0 := cv.1[j]?.getD 0#8
  let fb1 := cv.1.setIfInBounds j (old0 ^^^ left)
  let hit1 := cv.2 || decide (old0 &&& left ≠ 0#8)
  if sh = 0 then (fb1, hit1)
  else
    let old1 := fb1[j + 1]?.getD 0#8
    (fb1.setIfInBounds (j + 1) (old1 ^^^ right), hit1 || decide (old1 &&& right ≠ 0#8))

/-- The general registers an instruction may write in its own `Step` (R22). `FX0A` writes none
there: its register is written by the `Key` event that wakes it. -/
def mayWriteReg (i : Instr) (r : RegNum) : Prop :=
  match i with
  | .ldImm x _ | .addImm x _ | .ldReg x _ | .orReg x _ | .andReg x _ | .xorReg x _ | .rnd x _
  | .ldVxDT x => r = x
  | .addReg x _ | .subReg x _ | .shr x _ | .subnReg x _ | .shl x _ => r = x ∨ r = vf
  | .drw _ _ _ => r = vf
  | .loadRegs x => r ≤ x
  | .cls | .ret | .jp _ | .call _ | .seImm _ _ | .sneImm _ _ | .seReg _ _ | .sneReg _ _ | .ldI _
  | .jpV0 _ | .skp _ | .sknp _ | .ldVxK _ | .ldDTVx _ | .ldSTVx _ | .addI _ | .ldF _ | .ldB _
  | .storeRegs _ => False

/-- How many bytes from `I` on an instruction stores (R67): 3, `X + 1`, or none. -/
def bytesStored (i : Instr) : Nat :=
  match i with
  | .ldB _ => 3
  | .storeRegs x => x.val + 1
  | .cls | .ret | .jp _ | .call _ | .seImm _ _ | .sneImm _ _ | .seReg _ _ | .ldImm _ _
  | .addImm _ _ | .ldReg _ _ | .orReg _ _ | .andReg _ _ | .xorReg _ _ | .addReg _ _ | .subReg _ _
  | .shr _ _ | .subnReg _ _ | .shl _ _ | .sneReg _ _ | .ldI _ | .jpV0 _ | .rnd _ _ | .drw _ _ _
  | .skp _ | .sknp _ | .ldVxDT _ | .ldVxK _ | .ldDTVx _ | .ldSTVx _ | .addI _ | .ldF _
  | .loadRegs _ => 0

/-- The control-flow instructions: those that write `pc` beyond the advance (R90). -/
def writesPc (i : Instr) : Prop :=
  match i with
  | .ret | .jp _ | .call _ | .jpV0 _ | .seImm _ _ | .sneImm _ _ | .seReg _ _ | .sneReg _ _ | .skp _
  | .sknp _ => True
  | .cls | .ldImm _ _ | .addImm _ _ | .ldReg _ _ | .orReg _ _ | .andReg _ _ | .xorReg _ _
  | .addReg _ _ | .subReg _ _ | .shr _ _ | .subnReg _ _ | .shl _ _ | .ldI _ | .rnd _ _
  | .drw _ _ _ | .ldVxDT _ | .ldVxK _ | .ldDTVx _ | .ldSTVx _ | .addI _ | .ldF _ | .ldB _
  | .storeRegs _ | .loadRegs _ => False

/-- The fatal conditions an instruction may raise in its own `Step` after decoding (R231). -/
def mayRaise (i : Instr) (c : Cause) : Prop :=
  match i with
  | .ret => c = .stackUnderflow
  | .call _ => c = .stackOverflow
  | .skp _ | .sknp _ => c = .badKey
  | .ldVxK _ => c = .inputDisconnected
  | .ldB _ | .storeRegs _ | .loadRegs _ => c = .memRange
  | .drw _ _ _ => c = .memRange ∨ c = .fbRange
  | .cls | .jp _ | .seImm _ _ | .sneImm _ _ | .seReg _ _ | .ldImm _ _ | .addImm _ _ | .ldReg _ _
  | .orReg _ _ | .andReg _ _ | .xorReg _ _ | .addReg _ _ | .subReg _ _ | .shr _ _ | .subnReg _ _
  | .shl _ _ | .sneReg _ _ | .ldI _ | .jpV0 _ | .rnd _ _ | .ldVxDT _ | .ldDTVx _ | .ldSTVx _
  | .addI _ | .ldF _ => False

end Sys2Proof.Machine
end

