-- ==== Sys2Proof/Certificates/Slice0/Obligations.lean ====
section
/-! DEFINITION. The statements for the provers, one per numbered rule or group of rules of spec/.
`t = { s with v := t.v }` says that `t` differs from `s` at most in `v`: every register, flag, special
register, latch, timer, pixel and memory byte not named in the braces is as it was.
D<n> is a decision of spec/92_eei_decisions.md: the spec's own choice, named where a clause rests on
it. -/

open Sys2Proof Sys2Proof.Machine

/-! ## Encoding -/

/-- Decoding the bytes of a well-formed instruction gives it back, with every operand, and leaves
the bytes after it (R92, R93, R98). -/
def Obligations.DecodeOfEncodedInstruction : Prop :=
  ∀ (i : Instr) (rest : List Byte), i.WellFormed → decode (encodeBytes i ++ rest) = .instr i rest

/-- A legal word is the encoding of the well-formed instruction it decodes to: no bit is dropped, not
even the ignored digit of `8XY6` and `8XYE` (R95, R98). -/
def Obligations.EncodeOfDecodedWord : Prop :=
  ∀ (w : Word) (i : Instr), decodeWord w = .instr i → i.WellFormed ∧ encode i = w

/-- A word decodes to an instruction of a row of the opcode table iff it matches the row's match and
mask (R98): the decoder follows the table, and no word matches two rows. -/
def Obligations.DecodeFollowsTheOpcodeTable : Prop :=
  ∀ (w : Word) (i : Instr), w &&& rowMask i = rowMatch i ↔
    ∃ j, decodeWord w = .instr j ∧ rowMask j = rowMask i ∧ rowMatch j = rowMatch i

/-- The illegal words are exactly those of R100, each with its cause (strict decode is D12). -/
def Obligations.IllegalWordsAndTheirCauses : Prop :=
  ∀ w : Word,
    (decodeWord w = .illegal .unimplementedSys ↔
      fieldOP w = 0x0#4 ∧ w ≠ 0x00E0#16 ∧ w ≠ 0x00EE#16) ∧
    (decodeWord w = .illegal .unknownOpcode ↔
      (fieldOP w = 0x5#4 ∧ fieldN w ≠ 0x0#4) ∨
      (fieldOP w = 0x8#4 ∧ fieldN w ∈ [0x8#4, 0x9#4, 0xA#4, 0xB#4, 0xC#4, 0xD#4, 0xF#4]) ∨
      (fieldOP w = 0x9#4 ∧ fieldN w ≠ 0x0#4) ∨
      (fieldOP w = 0xE#4 ∧ fieldNN w ∉ [0x9E#8, 0xA1#8]) ∨
      (fieldOP w = 0xF#4 ∧
        fieldNN w ∉ [0x07#8, 0x0A#8, 0x15#8, 0x18#8, 0x1E#8, 0x29#8, 0x33#8, 0x55#8, 0x65#8]))

/-- Words written out from the patterns of R98 decode to what they stand for. -/
def Obligations.WrittenOutWordsDecode : Prop :=
  decodeWord 0b0000000011100000#16 = .instr .cls ∧
  decodeWord 0b0010101010111100#16 = .instr (.call 0xABC) ∧
  decodeWord 0b0011111101000010#16 = .instr (.seImm 0xF 0x42) ∧
  decodeWord 0b1000101010110100#16 = .instr (.addReg 0xA 0xB) ∧
  decodeWord 0b1101011111001001#16 = .instr (.drw 0x7 0xC 9) ∧
  decodeWord 0b1110010010100001#16 = .instr (.sknp 0x4) ∧
  decodeWord 0b1111111001100101#16 = .instr (.loadRegs 0xE)

/-! ## The step cycle -/

/-- R61: the byte at `pc` is bits 15:8 of the fetched word, the byte at `pc + 1` bits 7:0. -/
def Obligations.FetchIsBigEndian : Prop :=
  ∀ s : State, (fetchWord s).toNat =
    256 * (s.mem.read s.pc.toNat).toNat + (s.mem.read (s.pc.toNat + 1)).toNat

/-- R90: an enabled step whose bytes at `pc` decode to `i` is `exec i` with `pc` advanced by 2 (and
the `Step` event taken off the schedule, which is the model's: log entry 4). -/
def Obligations.StepRunsTheDecodedInstruction : Prop :=
  ∀ (s s0 : State) (i : Instr), StepComesNext s s0 → s0.Running → s0.pc.toNat ≤ 4094 →
    decode [s0.mem.read s0.pc.toNat, s0.mem.read (s0.pc.toNat + 1)] = .instr i [] →
    step s = exec i { s0 with pc := s0.pc + 2 }

/-- A step that halts before it executes an instruction. R90, R100, R233: an illegal word halts with
its cause, `pc` advanced and nothing else changed. R91 (D6): a fetch at `pc >= 4095` halts with
`MemRange` and does not advance `pc`. -/
def Obligations.StepHaltsBeforeExecuting : Prop :=
  ∀ (s s0 : State), StepComesNext s s0 → s0.Running →
    (s0.pc.toNat ≤ 4094 → decodeWord (fetchWord s0) = .illegal .unimplementedSys →
      step s = .next { s0 with pc := s0.pc + 2, halt := some .unimplementedSys }) ∧
    (s0.pc.toNat ≤ 4094 → decodeWord (fetchWord s0) = .illegal .unknownOpcode →
      step s = .next { s0 with pc := s0.pc + 2, halt := some .unknownOpcode }) ∧
    (4095 ≤ s0.pc.toNat → step s = .next { s0 with halt := some .memRange })

/-- R284: progress under its premises on the events to come (which are the model's data: log entry 4).
If steps keep coming, a running Interpreter comes to its next `Step` with `pc`, memory, registers and
stack as they are now. If ticks keep coming and no `FX15` (`FX18`) is executed, the delay (sound) timer
reaches 0. If a press of a mapped key or a disconnect comes, a parked Interpreter stops waiting. -/
def Obligations.ProgressUnderFairness : Prop :=
  (∀ s : State, s.StepsKeepComing → s.Running →
    ∃ n u s0, Sys2Proof.core.run n s = .next u ∧ StepComesNext u s0 ∧
      s0 = { s with dt := s0.dt, st := s0.st, keys := s0.keys, inputOpen := s0.inputOpen,
                    schedule := s0.schedule, later := s0.later }) ∧
  (∀ s : State, s.TicksKeepComing →
    ((∀ k u x, Sys2Proof.core.run k s = .next u → ¬ Executes u (.ldDTVx x)) →
      ∃ n t, Sys2Proof.core.run n s = .next t ∧ t.dt = 0) ∧
    ((∀ k u x, Sys2Proof.core.run k s = .next u → ¬ Executes u (.ldSTVx x)) →
      ∃ n t, Sys2Proof.core.run n s = .next t ∧ t.st = 0)) ∧
  (∀ s : State, s.Inv → s.Parked → s.WakeComes →
    ∃ n t, Sys2Proof.core.run n s = .next t ∧ ¬ t.Parked)

/-- R260 (D20), and log entry 5 for `Key` and `Disconnect`: a request for an event that is not enabled
has no effect and is not remembered. -/
def Obligations.DisabledEventHasNoEffect : Prop :=
  (∀ s s0 : State, StepComesNext s s0 → (s0.Halted ∨ s0.Parked) → step s = .next s0) ∧
  (∀ (s s0 : State) (phys : PhysKey) (pressed : Bool), s0.inputOpen = false →
    (EventComesNext (.key phys pressed) s s0 ∨ EventComesNext .disconnect s s0) →
    step s = .next s0)

/-- The model's own `withFetchWord` (log entry 7): the very next step fetches the word stored at `pc`
and runs it. -/
def Obligations.WithFetchWordRunsTheWord : Prop :=
  ∀ (s : State) (w : Nat) (i : Instr), s.pc.toNat ≤ 4094 → decodeTableWord 16 w = some i →
    step (s.withFetchWord 16 w) =
      exec i { s.withFetchWord 16 w with pc := s.pc + 2, schedule := s.schedule }

/-! ## Rules about the whole machine -/

/-- No step is a fault or a refusal: every stop of the machine is a next state with `HALT` set (R230,
R233), and every disabled request a state without effect (log entries 5, 6). -/
def Obligations.EveryStepAnswersNext : Prop := ∀ s : State, ∃ t, step s = .next t

/-- The state right after reset meets the invariant. -/
def Obligations.ResetMeetsInvariant : Prop := State.reset.Inv

/-- Every step keeps the invariant: canonical memory, `pc` at most 0x10FE (R23, R114), return addresses
in 2 to 4096 and the depth bound (R32), a parked Interpreter not halted (R38, R252). -/
def Obligations.StepKeepsInvariant : Prop :=
  ∀ s t : State, s.Inv → step s = .next t → t.Inv

/-- R233 (D15): fatal conditions are precise. A step that halts changes nothing but `HALT` and `pc`,
which is advanced by 2, or kept by the fetch `MemRange`. -/
def Obligations.FatalConditionsArePrecise : Prop :=
  ∀ s s0 t : State, StepComesNext s s0 → s0.Running → step s = .next t → t.Halted →
    t = { s0 with pc := t.pc, halt := t.halt } ∧
    ((s0.pc.toNat ≤ 4094 ∧ t.pc = s0.pc + 2) ∨
     (4095 ≤ s0.pc.toNat ∧ t.pc = s0.pc ∧ t.halt = some .memRange))

/-- R40, R235, R261 (D19): a halted machine stays halted with the same cause, and everything the
Interpreter owns, and the framebuffer, is frozen. -/
def Obligations.HaltedMachineIsFrozen : Prop :=
  ∀ s t : State, s.Inv → s.Halted → step s = .next t →
    t = { s with dt := t.dt, st := t.st, keys := t.keys, inputOpen := t.inputOpen,
                 schedule := t.schedule, later := t.later }

/-- R38, R260 (D17, D20): while parked nothing the Interpreter owns changes, except that a press of a
mapped key writes it to the waiting register and ends the wait, and that a disconnect ends it as a
fatal condition. -/
def Obligations.ParkedMachineWaits : Prop :=
  ∀ (s t : State) (x : RegNum), s.Inv → s.wait = some x → step s = .next t →
    t = { s with v := t.v, wait := t.wait, halt := t.halt, dt := t.dt, st := t.st, keys := t.keys,
                 inputOpen := t.inputOpen, schedule := t.schedule, later := t.later } ∧
    ((t.v = s.v ∧ t.wait = some x ∧ t.halt = none) ∨
     (∃ phys k s0, EventComesNext (.key phys true) s s0 ∧ keyMap phys = some k ∧
        t.wait = none ∧ t.halt = none ∧ (t.reg x).toNat = k.val ∧ ∀ r, r ≠ x → t.reg r = s.reg r) ∨
     (∃ s0, EventComesNext .disconnect s s0 ∧ t.v = s.v ∧ t.wait = none ∧
        t.halt = some .inputDisconnected))

/-- R22: in its own `Step` an instruction writes no general register but its destinations. -/
def Obligations.RegistersKeptOutsideDestinations : Prop :=
  ∀ (i : Instr) (s t : State) (r : RegNum), exec i s = .next t → ¬ mayWriteReg i r →
    t.reg r = s.reg r

/-- R60, R67: an instruction stores to no byte but the `bytesStored i` bytes from `I` on (3 for `FX33`,
`X + 1` for `FX55`, none for the others); every other byte reads as before. -/
def Obligations.MemoryKeptOutsideStoredBytes : Prop :=
  ∀ (i : Instr) (s t : State) (a : Nat), exec i s = .next t →
    ¬ (indexAddr s ≤ a ∧ a < indexAddr s + bytesStored i) → t.mem.read a = s.mem.read a

/-- R20, R25: `I`, the stack, `DT`, `ST`, the framebuffer, and the latches `WAIT` and `HALT` are written
by the instructions named here and by no other (`HALT` by those that raise a fatal condition, R231),
and `KEYS` and `INPUT_OPEN` by none. R90, R119: `pc`, already advanced, is written by the control-flow
instructions alone. The clauses on `draws`, `stackLimit`, `schedule` and `later` are about the model's
own fields (log entries 3, 2, 4). -/
def Obligations.SpecialRegistersKept : Prop :=
  ∀ (i : Instr) (s t : State), exec i s = .next t →
    ((∀ nnn, i ≠ .ldI nnn) → (∀ x, i ≠ .addI x) → (∀ x, i ≠ .ldF x) → t.i = s.i) ∧
    ((∀ nnn, i ≠ .call nnn) → i ≠ .ret → t.stack = s.stack) ∧
    ((∀ x, i ≠ .ldDTVx x) → t.dt = s.dt) ∧
    ((∀ x, i ≠ .ldSTVx x) → t.st = s.st) ∧
    (i ≠ .cls → (∀ x y n, i ≠ .drw x y n) → t.fb = s.fb) ∧
    ((∀ x, i ≠ .ldVxK x) → t.wait = s.wait) ∧
    ((∀ c, ¬ mayRaise i c) → t.halt = s.halt) ∧
    ((∀ x nn, i ≠ .rnd x nn) → t.draws = s.draws) ∧
    (¬ writesPc i → t.pc = s.pc) ∧
    t.keys = s.keys ∧ t.inputOpen = s.inputOpen ∧ t.stackLimit = s.stackLimit ∧
    t.schedule = s.schedule ∧ t.later = s.later

/-- R231: an instruction raises no fatal condition but its own, and one that raises none leaves `HALT`
as it was. -/
def Obligations.CausesRaisedOnlyByTheirInstructions : Prop :=
  ∀ (i : Instr) (s t : State), exec i s = .next t →
    t.halt = s.halt ∨ ∃ c, mayRaise i c ∧ t = { s with halt := some c }

/-- R24: after an instruction that writes the flag and takes no fatal condition, `VF` is 0 or 1. -/
def Obligations.FlagIsZeroOrOne : Prop :=
  ∀ (x y : RegNum) (n : Nat) (i : Instr) (s t : State),
    i ∈ [.addReg x y, .subReg x y, .shr x y, .subnReg x y, .shl x y, .drw x y n] →
    exec i s = .next t → s.halt = none → t.halt = none → t.reg vf = 0 ∨ t.reg vf = 1

/-- R22, R237, R240: the events of the other agents leave memory, `pc`, `I`, the stack and the
framebuffer alone, and write a general register only when a press of a mapped key wakes the `FX0A`
that names it. -/
def Obligations.OtherAgentsKeepCpuState : Prop :=
  ∀ (e : Event) (s t : State), e ≠ .step → runEvent e s = .next t →
    t = { s with v := t.v, dt := t.dt, st := t.st, keys := t.keys, wait := t.wait, halt := t.halt,
                 inputOpen := t.inputOpen } ∧
    ∀ r, t.reg r = s.reg r ∨
      (s.wait = some r ∧ ∃ phys k, e = .key phys true ∧ keyMap phys = some k)

/-- R10, R208 (D26): nothing observes `ST`. Two states that differ in `ST` alone take any instruction
to states that differ at most in `ST`. -/
def Obligations.SoundTimerIsUnobserved : Prop :=
  ∀ (i : Instr) (s t : State) (b : Byte), exec i s = .next t →
    ∃ t', exec i { s with st := b } = .next t' ∧ { t' with st := 0 } = { t with st := 0 }

/-! ## Reset -/

/-- The values after reset with the default parameters: `pc`, the empty stack and the place of the font
from the document (R29), the zeros from D2, the font's bytes from D3, the latches derived (R272); the
model's own fields `stackLimit`, `draws`, `schedule` and `later` from log entries 2, 3, 4. -/
def Obligations.ResetValues : Prop :=
  State.reset.pc = 0x0200 ∧ State.reset.stack = [] ∧ (∀ r, State.reset.reg r = 0) ∧
  State.reset.i = 0 ∧ State.reset.dt = 0 ∧ State.reset.st = 0 ∧ State.reset.keys = 0 ∧
  (∀ p, State.reset.fb.bit p = false) ∧ State.reset.wait = none ∧ State.reset.halt = none ∧
  State.reset.inputOpen = true ∧ State.reset.stackLimit = none ∧ State.reset.draws = 0 ∧
  State.reset.schedule = [] ∧ State.reset.later = .repeating .step [] ∧
  (∀ k < 80, State.reset.mem.read (0x050 + k) = defaultFont[k]?.getD 0) ∧
  (∀ a, a < 0x050 ∨ 0x0A0 ≤ a → State.reset.mem.read a = 0)

/-- R270, R272 (D2): `Reset` with any FONT_TABLE, STACK_LIMIT and PROGRAM that fits: every byte of
memory, and the invariant; every other field is as after the default reset. -/
def Obligations.ResetLoadsFontAndProgram : Prop :=
  ∀ (font : Vector Byte 80) (limit : Option Nat) (program : List Byte) (schedule : List Event)
    (later : Later), program.length ≤ 3584 →
    ∃ t, resetEvent font limit program schedule later = .next t ∧ t.Inv ∧
      t = { State.reset with
            mem := t.mem, stackLimit := limit, schedule := schedule, later := later } ∧
      (∀ k < 80, t.mem.read (0x050 + k) = font[k]?.getD 0) ∧
      (∀ k < program.length, t.mem.read (0x200 + k) = program[k]?.getD 0) ∧
      (∀ a, a < 0x050 ∨ (0x0A0 ≤ a ∧ a < 0x200) ∨ 0x200 + program.length ≤ a →
        t.mem.read a = 0)

/-- R271 (D28): `Reset` with an image longer than 3584 bytes is refused. -/
def Obligations.ResetRefusesLongImage : Prop :=
  ∀ (font : Vector Byte 80) (limit : Option Nat) (program : List Byte) (schedule : List Event)
    (later : Later), 3584 < program.length →
    resetEvent font limit program schedule later = .refused .programTooLong

/-- `State.reset` is `Reset` with the default font (D3), no stack limit (D13), an empty PROGRAM and
one `Step` after another to come. -/
def Obligations.DefaultResetIsReset : Prop :=
  ∀ font : Vector Byte 80, font.toList = defaultFont →
    resetEvent font none [] [] (.repeating .step []) = .next State.reset

/-! ## Control flow -/

/-- R111, R114: `1NNN` jumps to `NNN`; `BNNN` to the unreduced sum `V[0] + NNN`. -/
def Obligations.JumpsGoToTheirTargets : Prop :=
  ∀ (nnn : BitVec 12) (s : State),
    (∃ t, exec (.jp nnn) s = .next t ∧ t = { s with pc := t.pc } ∧ t.pc.toNat = nnn.toNat) ∧
    (∃ t, exec (.jpV0 nnn) s = .next t ∧ t = { s with pc := t.pc } ∧
      t.pc.toNat = (s.reg 0).toNat + nnn.toNat)

/-- R112: `00EE` pops the newest entry into `pc`; on an empty stack it is `StackUnderflow` and nothing
else changes. -/
def Obligations.ReturnPopsTheStack : Prop :=
  ∀ s : State,
    (∀ a rest, s.stack = a :: rest → exec .ret s = .next { s with pc := a, stack := rest }) ∧
    (s.stack = [] → exec .ret s = .next { s with halt := some .stackUnderflow })

/-- R113 (D13): `2NNN` pushes the address of the following instruction and jumps; with a finite
STACK_LIMIT reached it is `StackOverflow` and nothing is pushed. -/
def Obligations.CallPushesTheFollowingAddress : Prop :=
  ∀ (nnn : BitVec 12) (s : State),
    ((∀ l, s.stackLimit = some l → s.stack.length ≠ l) →
      ∃ t, exec (.call nnn) s = .next t ∧ t = { s with pc := t.pc, stack := s.pc :: s.stack } ∧
        t.pc.toNat = nnn.toNat) ∧
    (s.stackLimit = some s.stack.length →
      exec (.call nnn) s = .next { s with halt := some .stackOverflow })

/-- R115 to R118: each skip adds 2 to `pc` iff its condition holds, and changes nothing else. -/
def Obligations.SkipsAddTwo : Prop :=
  ∀ (x y : RegNum) (nn : Byte) (s : State),
    exec (.seImm x nn) s = .next { s with pc := if s.reg x = nn then s.pc + 2 else s.pc } ∧
    exec (.sneImm x nn) s = .next { s with pc := if s.reg x = nn then s.pc else s.pc + 2 } ∧
    exec (.seReg x y) s = .next { s with pc := if s.reg x = s.reg y then s.pc + 2 else s.pc } ∧
    exec (.sneReg x y) s = .next { s with pc := if s.reg x = s.reg y then s.pc else s.pc + 2 }

/-! ## Loads, arithmetic, logic, random -/

/-- R132, R134: the register loads. -/
def Obligations.LoadsSetOneRegister : Prop :=
  ∀ (x y : RegNum) (nn : Byte) (s : State),
    (∃ t, exec (.ldImm x nn) s = .next t ∧ t = { s with v := t.v } ∧
      ∀ r, t.reg r = if r = x then nn else s.reg r) ∧
    (∃ t, exec (.ldReg x y) s = .next t ∧ t = { s with v := t.v } ∧
      ∀ r, t.reg r = if r = x then s.reg y else s.reg r)

/-- R133, R135, R136, R137 (D16: no flag): the destination gets the wrapped sum, or the bitwise
result; no other register changes, `V[15]` among them. -/
def Obligations.AddImmediateAndLogic : Prop :=
  ∀ (x y : RegNum) (nn : Byte) (s : State),
    (∃ t, exec (.addImm x nn) s = .next t ∧ t = { s with v := t.v } ∧
      (t.reg x).toNat = ((s.reg x).toNat + nn.toNat) % 256 ∧ ∀ r, r ≠ x → t.reg r = s.reg r) ∧
    (∃ t, exec (.orReg x y) s = .next t ∧ t = { s with v := t.v } ∧
      (∀ k, (t.reg x).getLsbD k = ((s.reg x).getLsbD k || (s.reg y).getLsbD k)) ∧
      ∀ r, r ≠ x → t.reg r = s.reg r) ∧
    (∃ t, exec (.andReg x y) s = .next t ∧ t = { s with v := t.v } ∧
      (∀ k, (t.reg x).getLsbD k = ((s.reg x).getLsbD k && (s.reg y).getLsbD k)) ∧
      ∀ r, r ≠ x → t.reg r = s.reg r) ∧
    (∃ t, exec (.xorReg x y) s = .next t ∧ t = { s with v := t.v } ∧
      (∀ k, (t.reg x).getLsbD k = ((s.reg x).getLsbD k ^^ (s.reg y).getLsbD k)) ∧
      ∀ r, r ≠ x → t.reg r = s.reg r)

/-- The table of R144 for `8XY4`, `8XY5`, `8XY7` (R138, R139, R141; the order of the writes is D11):
the result in `V[X]` unless `X = 0xF`, the carry or no-borrow flag in `V[15]` always, nothing else
changed. -/
def Obligations.AddAndSubtractSetTheFlag : Prop :=
  ∀ (x y : RegNum) (s : State),
    (∃ t, exec (.addReg x y) s = .next t ∧ t = { s with v := t.v } ∧
      (x ≠ vf → (t.reg x).toNat = ((s.reg x).toNat + (s.reg y).toNat) % 256) ∧
      (t.reg vf).toNat = (if (s.reg x).toNat + (s.reg y).toNat > 255 then 1 else 0) ∧
      ∀ r, r ≠ x → r ≠ vf → t.reg r = s.reg r) ∧
    (∃ t, exec (.subReg x y) s = .next t ∧ t = { s with v := t.v } ∧
      (x ≠ vf → (t.reg x).toNat = ((s.reg x).toNat + 256 - (s.reg y).toNat) % 256) ∧
      (t.reg vf).toNat = (if (s.reg x).toNat ≥ (s.reg y).toNat then 1 else 0) ∧
      ∀ r, r ≠ x → r ≠ vf → t.reg r = s.reg r) ∧
    (∃ t, exec (.subnReg x y) s = .next t ∧ t = { s with v := t.v } ∧
      (x ≠ vf → (t.reg x).toNat = ((s.reg y).toNat + 256 - (s.reg x).toNat) % 256) ∧
      (t.reg vf).toNat = (if (s.reg y).toNat ≥ (s.reg x).toNat then 1 else 0) ∧
      ∀ r, r ≠ x → r ≠ vf → t.reg r = s.reg r)

/-- The table of R144 for `8XY6` and `8XYE` (R140, R142, D10, D11): the shift of `V[X]` alone, whatever
`Y` is, and the bit shifted out in `V[15]`; with `X = 0xF`, `8XY6` leaves 0 and `8XYE` the old bit
7. -/
def Obligations.ShiftsSetTheFlag : Prop :=
  ∀ (x y : RegNum) (s : State),
    (∃ t, exec (.shr x y) s = .next t ∧ t = { s with v := t.v } ∧
      (x ≠ vf → (t.reg x).toNat = (s.reg x).toNat / 2 ∧ (t.reg vf).toNat = (s.reg x).toNat % 2) ∧
      (x = vf → t.reg vf = 0) ∧
      ∀ r, r ≠ x → r ≠ vf → t.reg r = s.reg r) ∧
    (∃ t, exec (.shl x y) s = .next t ∧ t = { s with v := t.v } ∧
      (x ≠ vf → (t.reg x).toNat = 2 * (s.reg x).toNat % 256) ∧
      (t.reg vf).toNat = (s.reg x).toNat / 128 ∧
      ∀ r, r ≠ x → r ≠ vf → t.reg r = s.reg r)

/-- R143 (D24): `CXNN` masks a fresh draw, whatever byte is drawn: the bits that are 0 in `NN` are 0
after, and the next `CXNN` makes the next draw (log entry 3). -/
def Obligations.RandomIsAMaskedDraw : Prop :=
  ∀ (x : RegNum) (nn : Byte) (s : State),
    ∃ t, exec (.rnd x nn) s = .next t ∧ t = { s with v := t.v, draws := s.draws + 1 } ∧
      t.reg x = Config.randomByte s.draws &&& nn ∧
      (∀ k, nn.getLsbD k = false → (t.reg x).getLsbD k = false) ∧
      ∀ r, r ≠ x → t.reg r = s.reg r

/-! ## The index register and memory -/

/-- R161: `ANNN` loads `I` with the 12-bit value. -/
def Obligations.IndexLoadImmediate : Prop :=
  ∀ (nnn : BitVec 12) (s : State),
    ∃ t, exec (.ldI nnn) s = .next t ∧ t = { s with i := t.i } ∧ t.i.toNat = nnn.toNat

/-- R162 (D16: no flag), R163 (D29: no mask): `FX1E` wraps at 16 bits, `FX29` does not wrap. -/
def Obligations.IndexAddAndGlyphAddress : Prop :=
  ∀ (x : RegNum) (s : State),
    (∃ t, exec (.addI x) s = .next t ∧ t = { s with i := t.i } ∧
      t.i.toNat = (s.i.toNat + (s.reg x).toNat) % 65536) ∧
    (∃ t, exec (.ldF x) s = .next t ∧ t = { s with i := t.i } ∧
      t.i.toNat = 0x0050 + 5 * (s.reg x).toNat)

/-- R164 (the range check is D5): `FX33` stores the three decimal digits, hundreds first, at `I`,
`I + 1`, `I + 2`, and changes nothing else. -/
def Obligations.BcdStoresThreeDigits : Prop :=
  ∀ (x : RegNum) (s : State), s.i.toNat + 2 ≤ 4095 →
    ∃ t, exec (.ldB x) s = .next t ∧ t = { s with mem := t.mem } ∧
      (t.mem.read s.i.toNat).toNat ≤ 2 ∧
      (t.mem.read (s.i.toNat + 1)).toNat ≤ 9 ∧ (t.mem.read (s.i.toNat + 2)).toNat ≤ 9 ∧
      100 * (t.mem.read s.i.toNat).toNat + 10 * (t.mem.read (s.i.toNat + 1)).toNat
        + (t.mem.read (s.i.toNat + 2)).toNat = (s.reg x).toNat ∧
      ∀ a, ¬ (s.i.toNat ≤ a ∧ a ≤ s.i.toNat + 2) → t.mem.read a = s.mem.read a

/-- R165 (the range check is D5): `FX55` stores `V[0] .. V[X]` from `I` on, ascending, and changes
nothing else, `I` included. -/
def Obligations.RegisterDumpStoresInOrder : Prop :=
  ∀ (x : RegNum) (s : State), s.i.toNat + x.val ≤ 4095 →
    ∃ t, exec (.storeRegs x) s = .next t ∧ t = { s with mem := t.mem } ∧
      (∀ k : RegNum, k ≤ x → t.mem.read (s.i.toNat + k.val) = s.reg k) ∧
      ∀ a, ¬ (s.i.toNat ≤ a ∧ a ≤ s.i.toNat + x.val) → t.mem.read a = s.mem.read a

/-- R166 (the range check is D5): `FX65` loads `V[0] .. V[X]` from `I` on, ascending, and changes
nothing else, `I` included. -/
def Obligations.RegisterLoadReadsInOrder : Prop :=
  ∀ (x : RegNum) (s : State), s.i.toNat + x.val ≤ 4095 →
    ∃ t, exec (.loadRegs x) s = .next t ∧ t = { s with v := t.v } ∧
      ∀ k : RegNum, t.reg k = if k ≤ x then s.mem.read (s.i.toNat + k.val) else s.reg k

/-- R167: a register dump and a later load with the same `X`, `I` and memory restore `V[0] .. V[X]`,
whatever was done to the registers, and to the rest of the state, in between. -/
def Obligations.DumpThenLoadRestores : Prop :=
  ∀ (x : RegNum) (s t u w : State), s.i.toNat + x.val ≤ 4095 → exec (.storeRegs x) s = .next t →
    u.i = t.i → (∀ a, s.i.toNat ≤ a → a ≤ s.i.toNat + x.val → u.mem.read a = t.mem.read a) →
    exec (.loadRegs x) u = .next w → ∀ k : RegNum, k ≤ x → w.reg k = s.reg k

/-- R65 (D5): an access past the end of memory is `MemRange`; nothing is written, not even the part
of the range that lies in memory. -/
def Obligations.AccessPastTheEndHalts : Prop :=
  ∀ (x y : RegNum) (n : Nat) (s : State),
    (s.i.toNat + 2 > 4095 → exec (.ldB x) s = .next { s with halt := some .memRange }) ∧
    (s.i.toNat + x.val > 4095 → exec (.storeRegs x) s = .next { s with halt := some .memRange }) ∧
    (s.i.toNat + x.val > 4095 → exec (.loadRegs x) s = .next { s with halt := some .memRange }) ∧
    (s.i.toNat + n > 4096 → exec (.drw x y n) s = .next { s with halt := some .memRange })

/-- R74: bytes stored by `FX55` are the bytes a later step fetches. -/
def Obligations.StoredBytesAreFetched : Prop :=
  ∀ (x k l : RegNum) (s t : State), s.i.toNat + x.val ≤ 4095 → l.val = k.val + 1 → l ≤ x →
    exec (.storeRegs x) s = .next t → t.pc.toNat = s.i.toNat + k.val →
    fetchWord t = wordOfBytes (s.reg k) (s.reg l)

/-! ## The display -/

/-- R185: `00E0` clears all 2048 pixels and changes nothing else. -/
def Obligations.ClearZeroesAllPixels : Prop :=
  ∀ s : State, ∃ t, exec .cls s = .next t ∧ t = { s with fb := t.fb } ∧
    ∀ p < 2048, t.fb.bit p = false

/-- R186 (D4 for the bit order, R183's geometry of a sprite PRESUMED: log entry 9; D5 and D8 for the
conditions): `DXYN` inverts exactly the pixels its set
sprite bits name, spilling into the next row and clipping at the bottom, sets `V[15]` to 1 iff one of
them was set, to 0 otherwise, and changes nothing else. -/
def Obligations.DrawXorsThePixels : Prop :=
  ∀ (x y : RegNum) (n : Nat) (s : State), s.i.toNat + n ≤ 4096 → ¬ spriteSpillsOut s x y n →
    ∃ t, exec (.drw x y n) s = .next t ∧ t = { s with v := t.v, fb := t.fb } ∧
      (∀ q, spriteSets s x y n q → t.fb.bit q = !s.fb.bit q) ∧
      (∀ q, ¬ spriteSets s x y n q → t.fb.bit q = s.fb.bit q) ∧
      ((∃ q, spriteSets s x y n q ∧ s.fb.bit q = true) → t.reg vf = 1) ∧
      ((∀ q, spriteSets s x y n q → s.fb.bit q = false) → t.reg vf = 0) ∧
      ∀ r, r ≠ vf → t.reg r = s.reg r

/-- R184, R186 (D8): with the sprite in memory, row 31 drawn and `x0 >= 57`, `DXYN` is `FbRange`: no
pixel and no register is written. -/
def Obligations.DrawPastTheLastByteHalts : Prop :=
  ∀ (x y : RegNum) (n : Nat) (s : State), s.i.toNat + n ≤ 4096 → spriteSpillsOut s x y n →
    exec (.drw x y n) s = .next { s with halt := some .fbRange }

/-- R187: drawing one row pixel by pixel is the byte-wise XOR of its two halves into two neighbouring
bytes, wherever no bit leaves the framebuffer. -/
def Obligations.DrawRowIsBytewise : Prop :=
  ∀ (b : Byte) (x0 row : Nat) (cv : Canvas), x0 < 64 → row < 32 → (x0 < 57 ∨ row < 31) →
    drawRow b (64 * row + x0) cv = bytewiseRow b x0 row cv

/-- R188: a second draw of the same sprite at the same place, on the framebuffer the first one left,
restores the framebuffer of before the first; it sets the flag to 1 iff one of the sprite's pixels was
clear before the first draw, so that the first draw left it set. -/
def Obligations.DrawTwiceRestores : Prop :=
  ∀ (x y : RegNum) (n : Nat) (s t t' u : State), s.i.toNat + n ≤ 4096 → ¬ spriteSpillsOut s x y n →
    exec (.drw x y n) s = .next t → t'.fb = t.fb → t'.reg x = s.reg x → t'.reg y = s.reg y →
    t'.i = s.i → (∀ a, t'.mem.read a = s.mem.read a) → exec (.drw x y n) t' = .next u →
    u.fb = s.fb ∧ (u.reg vf = 1 ↔ ∃ q, spriteSets s x y n q ∧ s.fb.bit q = false)

/-! ## Keys, timers and the other events -/

/-- R201, R202, R203 (D9): the key tests skip on the held bit of the key `V[X]`; a value above 15 is
`BadKey`. -/
def Obligations.KeyTestsSampleTheMask : Prop :=
  ∀ (x : RegNum) (s : State),
    ((s.reg x).toNat ≤ 15 →
      exec (.skp x) s = .next
        { s with pc := if s.keys.getLsbD (s.reg x).toNat then s.pc + 2 else s.pc } ∧
      exec (.sknp x) s = .next
        { s with pc := if s.keys.getLsbD (s.reg x).toNat then s.pc else s.pc + 2 }) ∧
    ((s.reg x).toNat > 15 →
      exec (.skp x) s = .next { s with halt := some .badKey } ∧
      exec (.sknp x) s = .next { s with halt := some .badKey })

/-- R204, R205 (D18): the step of `FX0A` parks the Interpreter; with the source closed it is
`InputDisconnected`. -/
def Obligations.KeyWaitParks : Prop :=
  ∀ (x : RegNum) (s : State),
    (s.inputOpen = true → exec (.ldVxK x) s = .next { s with wait := some x }) ∧
    (s.inputOpen = false → exec (.ldVxK x) s = .next { s with halt := some .inputDisconnected })

/-- R204, R248, R249 (D17): a press of a mapped key while `FX0A` waits writes the key to its register,
ends the wait and records the key as held; nothing else changes. -/
def Obligations.KeyPressCompletesTheWait : Prop :=
  ∀ (s s0 : State) (phys : PhysKey) (k x : RegNum), s.inputOpen = true →
    s.wait = some x → keyMap phys = some k → EventComesNext (.key phys true) s s0 →
    ∃ t, step s = .next t ∧ t = { s0 with v := t.v, wait := none, keys := t.keys } ∧
      (t.reg x).toNat = k.val ∧ (∀ r, r ≠ x → t.reg r = s.reg r) ∧
      t.keys.getLsbD k.val = true ∧ (∀ j, j ≠ k.val → t.keys.getLsbD j = s.keys.getLsbD j)

/-- R248, R249 (D17): any other key event updates the mask of a mapped key and changes nothing else:
it is not remembered for a later wait, and a waiting `FX0A` goes on waiting. -/
def Obligations.OtherKeyEventsOnlyUpdateTheMask : Prop :=
  ∀ (s s0 : State) (phys : PhysKey) (pressed : Bool), s.inputOpen = true →
    (s.wait = none ∨ pressed = false ∨ keyMap phys = none) →
    EventComesNext (.key phys pressed) s s0 →
    ∃ t, step s = .next t ∧ t = { s0 with keys := t.keys } ∧
      (keyMap phys = none → t.keys = s.keys) ∧
      (∀ k, keyMap phys = some k → t.keys.getLsbD k.val = pressed ∧
        ∀ j, j ≠ k.val → t.keys.getLsbD j = s.keys.getLsbD j)

/-- R247 (D31): the sixteen rows of the key map, which is one-to-one and onto the logical keys on the
sixteen keys; every other key is unmapped. -/
def Obligations.KeyMapIsOneToOne : Prop :=
  (keyMap .key1 = some 0x1 ∧ keyMap .key2 = some 0x2 ∧ keyMap .key3 = some 0x3 ∧
    keyMap .key4 = some 0xC ∧
   keyMap .keyQ = some 0x4 ∧ keyMap .keyW = some 0x5 ∧ keyMap .keyE = some 0x6 ∧
    keyMap .keyR = some 0xD ∧
   keyMap .keyA = some 0x7 ∧ keyMap .keyS = some 0x8 ∧ keyMap .keyD = some 0x9 ∧
    keyMap .keyF = some 0xE ∧
   keyMap .keyZ = some 0xA ∧ keyMap .keyX = some 0x0 ∧ keyMap .keyC = some 0xB ∧
    keyMap .keyV = some 0xF) ∧
  (∀ k : RegNum, ∃ p, keyMap p = some k ∧ ∀ q, keyMap q = some k → q = p) ∧
  ∀ id, keyMap (.other id) = none

/-- R252 (D18 for a disconnect with no waiter): the source closes; a waiting `FX0A` becomes the fatal
condition `InputDisconnected` and its register is not written. -/
def Obligations.DisconnectEndsTheWait : Prop :=
  ∀ s s0 : State, s.inputOpen = true → EventComesNext .disconnect s s0 →
    (s.wait ≠ none → s.halt = none → step s = .next
      { s0 with inputOpen := false, wait := none, halt := some .inputDisconnected }) ∧
    (s.wait = none ∨ s.halt ≠ none → step s = .next { s0 with inputOpen := false })

/-- R206, R207, R208: timer access. -/
def Obligations.TimerAccess : Prop :=
  ∀ (x : RegNum) (s : State),
    (∃ t, exec (.ldVxDT x) s = .next t ∧ t = { s with v := t.v } ∧
      ∀ r, t.reg r = if r = x then s.dt else s.reg r) ∧
    exec (.ldDTVx x) s = .next { s with dt := s.reg x } ∧
    exec (.ldSTVx x) s = .next { s with st := s.reg x }

/-- R245: a tick takes 1 from each timer that is not 0, in any state, and touches nothing else. -/
def Obligations.TickCountsDown : Prop :=
  ∀ s s0 : State, EventComesNext .tick s s0 →
    ∃ t, step s = .next t ∧ t = { s0 with dt := t.dt, st := t.st } ∧
      (s.dt.toNat > 0 → t.dt.toNat = s.dt.toNat - 1) ∧ (s.dt.toNat = 0 → t.dt.toNat = 0) ∧
      (s.st.toNat > 0 → t.st.toNat = s.st.toNat - 1) ∧ (s.st.toNat = 0 → t.st.toNat = 0)

/-- R246: however `m` events are interleaved, a timer at `v` that no `FX15` (`FX18`) among them writes
holds `max(v - n, 0)` after them, where `n` of them are ticks. If all `m` are ticks nothing but the
timers changes. `m` steps take exactly the first `m` events. (The events to come are the model's data:
log entry 4.) -/
def Obligations.TimersAfterManyTicks : Prop :=
  ∀ (m : Nat) (s : State), ∃ t, Sys2Proof.core.run m s = .next t ∧
    ((∀ k u x, k < m → Sys2Proof.core.run k s = .next u → ¬ Executes u (.ldDTVx x)) →
      t.dt.toNat = s.dt.toNat - s.ticksIn m) ∧
    ((∀ k u x, k < m → Sys2Proof.core.run k s = .next u → ¬ Executes u (.ldSTVx x)) →
      t.st.toNat = s.st.toNat - s.ticksIn m) ∧
    ((∀ k < m, s.eventAt k = .tick) →
      t = { s with dt := t.dt, st := t.st, schedule := t.schedule, later := t.later } ∧
      t.dt.toNat = s.dt.toNat - m ∧ t.st.toNat = s.st.toNat - m) ∧
    ∀ k, t.eventAt k = s.eventAt (m + k)

/-- R256 (D27: whole steps): a snapshot returns the 256 bytes of the framebuffer and changes no
state. -/
def Obligations.SnapshotReadsTheFramebuffer : Prop :=
  ∀ s s0 : State, EventComesNext .snapshot s s0 → snapshot s = s.fb ∧ step s = .next s0
end

