-- ==== Sys2Proof/Laws/Framebuffer.lean ====
section
/-! SUPPORT. The framebuffer: what a flip does to one pixel, and drawing as flips of a list of
pixels (spec/43_display.md R181, R186). -/

namespace Sys2Proof.Machine

/-- A flip inverts its pixel and leaves every other pixel as it was (R181). -/
theorem FrameBuffer.bit_flip (fb : FrameBuffer) (p q : Nat) (h : p < 2048) :
    (fb.flip p).bit q = (fb.bit q ^^ decide (q = p)) := by
  have hp : p / 8 < 256 := by omega
  unfold FrameBuffer.bit FrameBuffer.flip
  rw [Vector.getElem?_setIfInBounds]
  by_cases hb : p / 8 = q / 8
  · have hs : fb[p / 8]? = fb[q / 8]? := by rw [hb]
    simp only [hb, if_true, hb ▸ hp, Option.getD_some, BitVec.getLsbD_xor, BitVec.getLsbD_twoPow]
    by_cases hq : q = p
    · subst hq
      have : 7 - q % 8 < 8 := by omega
      simp [this]
    · have h2 : ¬ (7 - p % 8 = 7 - q % 8) := by omega
      simp [hq, h2]
  · have hq : ¬ q = p := fun e => hb (by rw [e])
    simp [hb, hq]

theorem FrameBuffer.bit_clear (q : Nat) : FrameBuffer.clear.bit q = false := by
  unfold FrameBuffer.bit FrameBuffer.clear
  rw [Vector.getElem?_replicate]
  split <;> simp

/-- Framebuffers that agree on all 2048 pixels are equal. -/
theorem FrameBuffer.eq_of_bit (f g : FrameBuffer) (h : ∀ p < 2048, f.bit p = g.bit p) : f = g := by
  apply Vector.ext
  intro j hj
  apply BitVec.eq_of_getLsbD_eq
  intro k hk
  have hd : (8 * j + (7 - k)) / 8 = j := by omega
  have hm : 7 - (8 * j + (7 - k)) % 8 = k := by omega
  have := h (8 * j + (7 - k)) (by omega)
  simp only [FrameBuffer.bit, hd, hm] at this
  simpa [hj] using this

/-- The pixels of one row byte, from pixel `p` on, at the offsets `cs`. -/
def bitPixels (b : Byte) (p : Nat) (cs : List Nat) : List Nat :=
  (cs.filter fun c => b.getLsbD (7 - c)).map (p + ·)

/-- The pixels of the sprite rows, the first at pixel `p` on. -/
def rowPixels : List Byte → Nat → List Nat
  | [], _ => []
  | b :: bs, p => bitPixels b p (List.range 8) ++ rowPixels bs (p + Config.screenCols)

/-- Flip the pixels of a list in turn. -/
def drawPixels (ps : List Nat) (cv : Canvas) : Canvas := ps.foldl (fun cv p => drawPixel p cv) cv

theorem drawBits_eq (b : Byte) (p : Nat) (cs : List Nat) (cv : Canvas) :
    drawBits b p cs cv = drawPixels (bitPixels b p cs) cv := by
  induction cs generalizing cv with
  | nil => rfl
  | cons c cs ih =>
    by_cases hc : b.getLsbD (7 - c) <;> simp [drawBits, ih, bitPixels, drawPixels, hc]

/-- Drawing the rows flips their pixels in turn. -/
theorem drawRows_eq (bs : List Byte) (p : Nat) (cv : Canvas) :
    drawRows bs p cv = drawPixels (rowPixels bs p) cv := by
  induction bs generalizing p cv with
  | nil => rfl
  | cons b bs ih => simp [drawRows, ih, rowPixels, drawRow, drawBits_eq, drawPixels]

/-- Flipping a list of distinct pixels of the screen: each is inverted, the others are as before, and
the collision flag says whether one of them was set. -/
theorem drawPixels_spec (ps : List Nat) (cv : Canvas) (hnd : ps.Nodup) (hlt : ∀ p ∈ ps, p < 2048) :
    (∀ q, (drawPixels ps cv).1.bit q = (cv.1.bit q ^^ decide (q ∈ ps))) ∧
    (drawPixels ps cv).2 = (cv.2 || ps.any fun p => cv.1.bit p) := by
  induction ps generalizing cv with
  | nil => simp [drawPixels]
  | cons p ps ih =>
    obtain ⟨hp, hnd⟩ := List.nodup_cons.1 hnd
    have hp2 : p < 2048 := hlt p (by simp)
    obtain ⟨h1, h2⟩ := ih (drawPixel p cv) hnd (fun q hq => hlt q (by simp [hq]))
    have hunf : drawPixels (p :: ps) cv = drawPixels ps (drawPixel p cv) := rfl
    rw [hunf]
    constructor
    · intro q
      rw [h1 q]
      simp only [drawPixel, FrameBuffer.bit_flip _ _ _ hp2, List.mem_cons]
      by_cases hq : q = p
      · subst hq; simp [hp]
      · simp [hq]
    · rw [h2]
      have hany : (ps.any fun q => (drawPixel p cv).1.bit q) = ps.any fun q => cv.1.bit q := by
        rw [Bool.eq_iff_iff]
        simp only [List.any_eq_true, drawPixel]
        constructor <;> rintro ⟨q, hq, hb⟩ <;> refine ⟨q, hq, ?_⟩ <;>
          have hne : q ≠ p := (fun e => hp (e ▸ hq)) <;>
          simpa [FrameBuffer.bit_flip _ _ _ hp2, hne] using hb
      rw [hany]
      simp [drawPixel, Bool.or_assoc]

theorem mem_bitPixels (b : Byte) (p q : Nat) :
    q ∈ bitPixels b p (List.range 8) ↔ ∃ c < 8, q = p + c ∧ b.getLsbD (7 - c) = true := by
  simp only [bitPixels, List.mem_map, List.mem_filter, List.mem_range]
  constructor
  · rintro ⟨c, ⟨hc, hb⟩, rfl⟩
    exact ⟨c, hc, rfl, hb⟩
  · rintro ⟨c, hc, rfl, hb⟩
    exact ⟨c, ⟨hc, hb⟩, rfl⟩

/-- Which pixels the rows name: bit `7 - c` of row `r` is pixel `p + 64 r + c` (R183, R186). -/
theorem mem_rowPixels (bs : List Byte) (p q : Nat) :
    q ∈ rowPixels bs p ↔
      ∃ r, ∃ c < 8, r < bs.length ∧ q = p + 64 * r + c ∧
        (bs[r]?.getD 0#8).getLsbD (7 - c) = true := by
  induction bs generalizing p with
  | nil => simp [rowPixels]
  | cons b bs ih =>
    simp only [rowPixels, List.mem_append, mem_bitPixels, ih, Config.screenCols]
    constructor
    · rintro (⟨c, hc, rfl, hb⟩ | ⟨r, c, hc, hr, rfl, hb⟩)
      · exact ⟨0, c, hc, by simp, by omega, by simpa using hb⟩
      · exact ⟨r + 1, c, hc, by simpa using hr, by omega, by simpa using hb⟩
    · rintro ⟨r, c, hc, hr, rfl, hb⟩
      cases r with
      | zero => exact .inl ⟨c, hc, by omega, by simpa using hb⟩
      | succ r => exact .inr ⟨r, c, hc, by simpa using hr, by omega, by simpa using hb⟩

/-- No pixel is named twice: rows are 64 apart and a row spans 8 pixels (R186). -/
theorem nodup_rowPixels (bs : List Byte) (p : Nat) : (rowPixels bs p).Nodup := by
  induction bs generalizing p with
  | nil => simp [rowPixels]
  | cons b bs ih =>
    simp only [rowPixels]
    rw [List.nodup_append]
    refine ⟨?_, ih _, ?_⟩
    · exact ((List.nodup_range).filter _).map fun a b h => by simpa using h
    · intro a ha q hq
      obtain ⟨c, hc, rfl, -⟩ := (mem_bitPixels _ _ _).1 ha
      obtain ⟨r, d, hd, -, rfl, -⟩ := (mem_rowPixels _ _ _).1 hq
      simp only [Config.screenCols]
      omega

end Sys2Proof.Machine
end

