-- ==== Sys2Proof/Laws/Memory.lean ====
section
/-! SUPPORT. Memory: a read after a write, the canonical form kept by every operation, and equal
contents are equal lists. -/

namespace Sys2Proof.Machine

theorem length_defaultFont : defaultFont.length = 80 := by decide

/-- An unlisted address of the font reads as the default font's byte (R68). -/
theorem unlisted_font (k : Nat) : unlisted (0x050 + k) = defaultFont[k]?.getD 0#8 := by
  unfold unlisted
  rw [if_pos (show Config.fontBase ≤ 0x050 + k from Nat.le_add_right _ _)]
  congr 2
  exact Nat.add_sub_cancel_left _ _

/-- Any other unlisted address reads as 0 (R270). -/
theorem unlisted_zero (a : Nat) (h : a < 0x050 ∨ 0x0A0 ≤ a) : unlisted a = 0#8 := by
  unfold unlisted
  split
  · have h1 : 0x050 ≤ a := by assumption
    have h2 : a - Config.fontBase = a - 0x050 := rfl
    rw [h2, List.getElem?_eq_none (by rw [length_defaultFont]; omega)]
    rfl
  · rfl

/-- No entry of `m` is at address `a`. -/
def Memory.Free (m : Memory) (a : Nat) : Prop := ∀ c ∈ m, c.1 ≠ a

theorem Memory.free_filter (m : Memory) (a : Nat) :
    Memory.Free (m.filter (fun c => c.1 != a)) a := by
  intro c hc
  simpa using (List.mem_filter.1 hc).2

theorem Memory.read_free (m : Memory) (a : Nat) (h : m.Free a) : m.read a = unlisted a := by
  induction m with
  | nil => rfl
  | cons c m ih =>
    simp only [Memory.read, h c (by simp), if_false]
    exact ih fun d hd => h d (by simp [hd])

theorem Memory.read_filter_ne (m : Memory) (a q : Nat) (h : q ≠ a) :
    Memory.read (m.filter (fun c => c.1 != a)) q = m.read q := by
  induction m with
  | nil => rfl
  | cons c m ih =>
    by_cases hc : c.1 = a
    · have hq : ¬ c.1 = q := fun e => h (e ▸ hc)
      simp [hc, Memory.read, ih]
      omega
    · simp [hc, Memory.read, ih]

theorem Memory.read_insert (m : Memory) (a q : Nat) (b : Byte) (h : m.Free a) :
    Memory.read (Memory.insert a b m) q = if q = a then b else m.read q := by
  induction m with
  | nil => simp [Memory.insert, Memory.read, eq_comm]
  | cons c m ih =>
    have hc : c.1 ≠ a := h c (by simp)
    have hm : Memory.Free m a := fun d hd => h d (by simp [hd])
    by_cases hlt : a < c.1
    · simp only [Memory.insert, hlt, if_true, Memory.read, eq_comm]
    · simp only [Memory.insert, hlt, if_false, Memory.read, ih hm]
      by_cases hq : q = a
      · simp [hq, hc]
      · simp [hq]

/-- A read after a write: the byte written at its address, every other address as before. -/
theorem Memory.read_write (m : Memory) (a q : Nat) (b : Byte) (h : a < Config.memSize) :
    (m.write a b).read q = if q = a then b else m.read q := by
  by_cases hb : b = unlisted a
  · by_cases hq : q = a
    · subst hq
      simp [Memory.write, h, hb, Memory.read_free _ _ (m.free_filter q)]
    · simp [Memory.write, h, hb, hq, Memory.read_filter_ne]
  · by_cases hq : q = a
    · simp [Memory.write, h, hb, hq, Memory.read_insert _ _ _ _ (m.free_filter a)]
    · simp [Memory.write, h, hb, hq, Memory.read_insert _ _ _ _ (m.free_filter a),
        Memory.read_filter_ne]

/-- A read after a store of several bytes, all in range. -/
theorem Memory.read_writeBytes (bs : List Byte) (m : Memory) (a q : Nat)
    (h : a + bs.length ≤ Config.memSize) :
    (m.writeBytes a bs).read q =
      if a ≤ q ∧ q < a + bs.length then bs[q - a]?.getD 0#8 else m.read q := by
  induction bs generalizing m a with
  | nil =>
    have : ¬ (a ≤ q ∧ q < a + 0) := by omega
    simp only [Memory.writeBytes, List.length_nil, this, if_false]
  | cons b bs ih =>
    simp only [List.length_cons] at h ⊢
    rw [Memory.writeBytes, ih _ _ (by omega), Memory.read_write _ _ _ _ (by omega)]
    by_cases hq : q = a
    · subst hq
      simp
    · by_cases hr : a + 1 ≤ q ∧ q < a + 1 + bs.length
      · have h2 : a ≤ q ∧ q < a + (bs.length + 1) := by omega
        have h3 : q - a = (q - (a + 1)) + 1 := by omega
        simp [hr, h2, h3]
      · have h2 : ¬ (a ≤ q ∧ q < a + (bs.length + 1)) := by omega
        simp only [hr, h2, hq, if_false]

theorem Memory.length_readBytes (m : Memory) (a n : Nat) : (m.readBytes a n).length = n := by
  induction n generalizing a with
  | zero => rfl
  | succ n ih => simp [Memory.readBytes, ih]

/-- The `k`-th of the bytes read from `a` on is the byte at `a + k`. -/
theorem Memory.getElem?_readBytes (m : Memory) (a n k : Nat) (h : k < n) :
    (m.readBytes a n)[k]? = some (m.read (a + k)) := by
  induction n generalizing a k with
  | zero => omega
  | succ n ih =>
    cases k with
    | zero => simp [Memory.readBytes]
    | succ k =>
      simp only [Memory.readBytes, List.getElem?_cons_succ]
      rw [ih _ _ (by omega)]
      congr 2
      omega

/-! ### The canonical form -/

theorem Memory.wf_nil : Memory.wf [] := ⟨List.Pairwise.nil, fun _ h => nomatch h⟩

theorem Memory.wf_filter (m : Memory) (a : Nat) (h : m.wf) :
    Memory.wf (m.filter (fun c => c.1 != a)) :=
  ⟨h.1.filter _, fun c hc => h.2 c (List.mem_filter.1 hc).1⟩

theorem Memory.mem_insert (m : Memory) (a : Nat) (b : Byte) (c : Host.Cell) :
    c ∈ Memory.insert a b m ↔ c = (a, b) ∨ c ∈ m := by
  induction m with
  | nil => simp [Memory.insert]
  | cons d m ih =>
    by_cases hlt : a < d.1
    · simp [Memory.insert, hlt]
    · simp only [Memory.insert, hlt, if_false, List.mem_cons, ih]
      tauto

theorem Memory.pairwise_insert (m : Memory) (a : Nat) (b : Byte) (hf : m.Free a)
    (h : m.Pairwise (fun c d => c.1 < d.1)) :
    (Memory.insert a b m).Pairwise (fun c d => c.1 < d.1) := by
  induction m with
  | nil => simp [Memory.insert]
  | cons d m ih =>
    have hd : d.1 ≠ a := hf d (by simp)
    have hm : Memory.Free m a := fun c hc => hf c (by simp [hc])
    obtain ⟨h1, h2⟩ := List.pairwise_cons.1 h
    by_cases hlt : a < d.1
    · simp only [Memory.insert, hlt, if_true, List.pairwise_cons]
      refine ⟨?_, h1, h2⟩
      intro c hc
      rcases List.mem_cons.1 hc with rfl | hc
      · exact hlt
      · exact hlt.trans (h1 c hc)
    · simp only [Memory.insert, hlt, if_false, List.pairwise_cons]
      refine ⟨?_, ih hm h2⟩
      intro c hc
      rcases (Memory.mem_insert _ _ _ _).1 hc with rfl | hc
      · show d.1 < a
        omega
      · exact h1 c hc

/-- A write keeps the canonical form. -/
theorem Memory.wf_write (m : Memory) (a : Nat) (b : Byte) (h : m.wf) : (m.write a b).wf := by
  by_cases ha : a < Config.memSize
  · by_cases hb : b = unlisted a
    · simpa [Memory.write, ha, hb] using m.wf_filter a h
    · have hf := m.wf_filter a h
      refine ⟨?_, ?_⟩
      · simpa [Memory.write, ha, hb] using
          Memory.pairwise_insert _ a b (m.free_filter a) hf.1
      · intro c hc
        simp only [Memory.write, ha, hb, if_true, if_false, Memory.mem_insert] at hc
        rcases hc with rfl | hc
        · exact ⟨ha, hb⟩
        · exact hf.2 c hc
  · simpa [Memory.write, ha] using h

/-- A store of several bytes keeps the canonical form. -/
theorem Memory.wf_writeBytes (bs : List Byte) (m : Memory) (a : Nat) (h : m.wf) :
    (m.writeBytes a bs).wf := by
  induction bs generalizing m a with
  | nil => exact h
  | cons b bs ih => exact ih _ _ (m.wf_write a b h)

/-- In the canonical form every listed byte is what its address reads as. -/
theorem Memory.read_of_mem (m : Memory) (h : m.wf) (c : Host.Cell) (hc : c ∈ m) :
    m.read c.1 = c.2 := by
  induction m with
  | nil => simp at hc
  | cons d m ih =>
    obtain ⟨h1, h2⟩ := List.pairwise_cons.1 h.1
    rcases List.mem_cons.1 hc with rfl | hc
    · simp [Memory.read]
    · have : d.1 ≠ c.1 := (h1 c hc).ne
      simp only [Memory.read, this, if_false]
      exact ih ⟨h2, fun e he => h.2 e (by simp [he])⟩ hc

theorem Memory.wf_tail (c : Host.Cell) (m : Memory) (h : Memory.wf (c :: m)) : m.wf :=
  ⟨(List.pairwise_cons.1 h.1).2, fun d hd => h.2 d (by simp [hd])⟩

/-- Below a canonical memory's first listed address everything reads as unlisted. -/
theorem Memory.read_below (d : Host.Cell) (k : Memory) (a : Nat) (h : Memory.wf (d :: k))
    (ha : a < d.1) : Memory.read (d :: k) a = unlisted a := by
  apply Memory.read_free
  intro c hc
  rcases List.mem_cons.1 hc with rfl | hc
  · omega
  · have := (List.pairwise_cons.1 h.1).1 c hc
    omega

/-- Canonical memories that read the same everywhere are the same list. -/
theorem Memory.eq_of_read (m k : Memory) (hm : m.wf) (hk : k.wf)
    (h : ∀ a, m.read a = k.read a) : m = k := by
  induction m generalizing k with
  | nil =>
    cases k with
    | nil => rfl
    | cons d k =>
      exact absurd (by simpa [Memory.read] using (h d.1).symm) (hk.2 d (by simp)).2
  | cons c m ih =>
    cases k with
    | nil => exact absurd (by simpa [Memory.read] using h c.1) (hm.2 c (by simp)).2
    | cons d k =>
      have hc := (hm.2 c (by simp)).2
      have hd := (hk.2 d (by simp)).2
      have rc : Memory.read (c :: m) c.1 = c.2 := by simp [Memory.read]
      have rd : Memory.read (d :: k) d.1 = d.2 := by simp [Memory.read]
      have e1 : c.1 = d.1 := by
        rcases Nat.lt_trichotomy c.1 d.1 with hlt | he | hlt
        · exact absurd (by rw [← rc, h, Memory.read_below d k c.1 hk hlt]) hc
        · exact he
        · exact absurd (by rw [← rd, ← h, Memory.read_below c m d.1 hm hlt]) hd
      have e2 : c.2 = d.2 := by rw [← rc, h, e1, rd]
      have fm : Memory.Free m c.1 := fun x hx => ((List.pairwise_cons.1 hm.1).1 x hx).ne'
      have fk : Memory.Free k c.1 := fun x hx => e1 ▸ ((List.pairwise_cons.1 hk.1).1 x hx).ne'
      have e3 : m = k := by
        refine ih k (Memory.wf_tail c m hm) (Memory.wf_tail d k hk) fun a => ?_
        by_cases ha : c.1 = a
        · rw [← ha, Memory.read_free _ _ fm, Memory.read_free _ _ fk]
        · have ha' : ¬ d.1 = a := e1 ▸ ha
          simpa only [Memory.read, ha, ha', if_false] using h a
      rw [Prod.ext e1 e2, e3]

end Sys2Proof.Machine
end

