-- ==== Sys2Proof/Laws/State.lean ====
section
/-! SUPPORT. One lemma per field per update of `State`, each true by rfl, so that no later proof unfolds
a record update; and how a register reads after each update. -/

namespace Sys2Proof.Machine

variable (s : State)

/-! ### `setReg` -/

@[simp] theorem State.setReg_mem (r : RegNum) (b : Byte) : (s.setReg r b).mem = s.mem := rfl
@[simp] theorem State.setReg_pc (r : RegNum) (b : Byte) : (s.setReg r b).pc = s.pc := rfl
@[simp] theorem State.setReg_v (r : RegNum) (b : Byte) : (s.setReg r b).v = s.v.set r b := rfl
@[simp] theorem State.setReg_i (r : RegNum) (b : Byte) : (s.setReg r b).i = s.i := rfl
@[simp] theorem State.setReg_stack (r : RegNum) (b : Byte) : (s.setReg r b).stack = s.stack := rfl
@[simp] theorem State.setReg_dt (r : RegNum) (b : Byte) : (s.setReg r b).dt = s.dt := rfl
@[simp] theorem State.setReg_st (r : RegNum) (b : Byte) : (s.setReg r b).st = s.st := rfl
@[simp] theorem State.setReg_keys (r : RegNum) (b : Byte) : (s.setReg r b).keys = s.keys := rfl
@[simp] theorem State.setReg_fb (r : RegNum) (b : Byte) : (s.setReg r b).fb = s.fb := rfl
@[simp] theorem State.setReg_wait (r : RegNum) (b : Byte) : (s.setReg r b).wait = s.wait := rfl
@[simp] theorem State.setReg_halt (r : RegNum) (b : Byte) : (s.setReg r b).halt = s.halt := rfl
@[simp] theorem State.setReg_inputOpen (r : RegNum) (b : Byte) : (s.setReg r b).inputOpen = s.inputOpen := rfl
@[simp] theorem State.setReg_stackLimit (r : RegNum) (b : Byte) : (s.setReg r b).stackLimit = s.stackLimit := rfl
@[simp] theorem State.setReg_draws (r : RegNum) (b : Byte) : (s.setReg r b).draws = s.draws := rfl
@[simp] theorem State.setReg_schedule (r : RegNum) (b : Byte) : (s.setReg r b).schedule = s.schedule := rfl
@[simp] theorem State.setReg_later (r : RegNum) (b : Byte) : (s.setReg r b).later = s.later := rfl

/-! ### `loadRegsFrom` -/

@[simp] theorem State.loadRegsFrom_mem (bs : List Byte) : (s.loadRegsFrom bs).mem = s.mem := rfl
@[simp] theorem State.loadRegsFrom_pc (bs : List Byte) : (s.loadRegsFrom bs).pc = s.pc := rfl
@[simp] theorem State.loadRegsFrom_v (bs : List Byte) : (s.loadRegsFrom bs).v = setRegsFrom s.v 0 bs := rfl
@[simp] theorem State.loadRegsFrom_i (bs : List Byte) : (s.loadRegsFrom bs).i = s.i := rfl
@[simp] theorem State.loadRegsFrom_stack (bs : List Byte) : (s.loadRegsFrom bs).stack = s.stack := rfl
@[simp] theorem State.loadRegsFrom_dt (bs : List Byte) : (s.loadRegsFrom bs).dt = s.dt := rfl
@[simp] theorem State.loadRegsFrom_st (bs : List Byte) : (s.loadRegsFrom bs).st = s.st := rfl
@[simp] theorem State.loadRegsFrom_keys (bs : List Byte) : (s.loadRegsFrom bs).keys = s.keys := rfl
@[simp] theorem State.loadRegsFrom_fb (bs : List Byte) : (s.loadRegsFrom bs).fb = s.fb := rfl
@[simp] theorem State.loadRegsFrom_wait (bs : List Byte) : (s.loadRegsFrom bs).wait = s.wait := rfl
@[simp] theorem State.loadRegsFrom_halt (bs : List Byte) : (s.loadRegsFrom bs).halt = s.halt := rfl
@[simp] theorem State.loadRegsFrom_inputOpen (bs : List Byte) : (s.loadRegsFrom bs).inputOpen = s.inputOpen := rfl
@[simp] theorem State.loadRegsFrom_stackLimit (bs : List Byte) : (s.loadRegsFrom bs).stackLimit = s.stackLimit := rfl
@[simp] theorem State.loadRegsFrom_draws (bs : List Byte) : (s.loadRegsFrom bs).draws = s.draws := rfl
@[simp] theorem State.loadRegsFrom_schedule (bs : List Byte) : (s.loadRegsFrom bs).schedule = s.schedule := rfl
@[simp] theorem State.loadRegsFrom_later (bs : List Byte) : (s.loadRegsFrom bs).later = s.later := rfl

/-! ### `setPc` -/

@[simp] theorem State.setPc_mem (a : Word) : (s.setPc a).mem = s.mem := rfl
@[simp] theorem State.setPc_pc (a : Word) : (s.setPc a).pc = a := rfl
@[simp] theorem State.setPc_v (a : Word) : (s.setPc a).v = s.v := rfl
@[simp] theorem State.setPc_i (a : Word) : (s.setPc a).i = s.i := rfl
@[simp] theorem State.setPc_stack (a : Word) : (s.setPc a).stack = s.stack := rfl
@[simp] theorem State.setPc_dt (a : Word) : (s.setPc a).dt = s.dt := rfl
@[simp] theorem State.setPc_st (a : Word) : (s.setPc a).st = s.st := rfl
@[simp] theorem State.setPc_keys (a : Word) : (s.setPc a).keys = s.keys := rfl
@[simp] theorem State.setPc_fb (a : Word) : (s.setPc a).fb = s.fb := rfl
@[simp] theorem State.setPc_wait (a : Word) : (s.setPc a).wait = s.wait := rfl
@[simp] theorem State.setPc_halt (a : Word) : (s.setPc a).halt = s.halt := rfl
@[simp] theorem State.setPc_inputOpen (a : Word) : (s.setPc a).inputOpen = s.inputOpen := rfl
@[simp] theorem State.setPc_stackLimit (a : Word) : (s.setPc a).stackLimit = s.stackLimit := rfl
@[simp] theorem State.setPc_draws (a : Word) : (s.setPc a).draws = s.draws := rfl
@[simp] theorem State.setPc_schedule (a : Word) : (s.setPc a).schedule = s.schedule := rfl
@[simp] theorem State.setPc_later (a : Word) : (s.setPc a).later = s.later := rfl
@[simp] theorem State.reg_setPc (a : Word) (q : RegNum) : (s.setPc a).reg q = s.reg q := rfl

/-! ### `advance` -/

@[simp] theorem State.advance_mem : (s.advance).mem = s.mem := rfl
@[simp] theorem State.advance_pc : (s.advance).pc = s.pc + 2#16 := rfl
@[simp] theorem State.advance_v : (s.advance).v = s.v := rfl
@[simp] theorem State.advance_i : (s.advance).i = s.i := rfl
@[simp] theorem State.advance_stack : (s.advance).stack = s.stack := rfl
@[simp] theorem State.advance_dt : (s.advance).dt = s.dt := rfl
@[simp] theorem State.advance_st : (s.advance).st = s.st := rfl
@[simp] theorem State.advance_keys : (s.advance).keys = s.keys := rfl
@[simp] theorem State.advance_fb : (s.advance).fb = s.fb := rfl
@[simp] theorem State.advance_wait : (s.advance).wait = s.wait := rfl
@[simp] theorem State.advance_halt : (s.advance).halt = s.halt := rfl
@[simp] theorem State.advance_inputOpen : (s.advance).inputOpen = s.inputOpen := rfl
@[simp] theorem State.advance_stackLimit : (s.advance).stackLimit = s.stackLimit := rfl
@[simp] theorem State.advance_draws : (s.advance).draws = s.draws := rfl
@[simp] theorem State.advance_schedule : (s.advance).schedule = s.schedule := rfl
@[simp] theorem State.advance_later : (s.advance).later = s.later := rfl
@[simp] theorem State.reg_advance (q : RegNum) : (s.advance).reg q = s.reg q := rfl

/-! ### `setIndex` -/

@[simp] theorem State.setIndex_mem (a : Word) : (s.setIndex a).mem = s.mem := rfl
@[simp] theorem State.setIndex_pc (a : Word) : (s.setIndex a).pc = s.pc := rfl
@[simp] theorem State.setIndex_v (a : Word) : (s.setIndex a).v = s.v := rfl
@[simp] theorem State.setIndex_i (a : Word) : (s.setIndex a).i = a := rfl
@[simp] theorem State.setIndex_stack (a : Word) : (s.setIndex a).stack = s.stack := rfl
@[simp] theorem State.setIndex_dt (a : Word) : (s.setIndex a).dt = s.dt := rfl
@[simp] theorem State.setIndex_st (a : Word) : (s.setIndex a).st = s.st := rfl
@[simp] theorem State.setIndex_keys (a : Word) : (s.setIndex a).keys = s.keys := rfl
@[simp] theorem State.setIndex_fb (a : Word) : (s.setIndex a).fb = s.fb := rfl
@[simp] theorem State.setIndex_wait (a : Word) : (s.setIndex a).wait = s.wait := rfl
@[simp] theorem State.setIndex_halt (a : Word) : (s.setIndex a).halt = s.halt := rfl
@[simp] theorem State.setIndex_inputOpen (a : Word) : (s.setIndex a).inputOpen = s.inputOpen := rfl
@[simp] theorem State.setIndex_stackLimit (a : Word) : (s.setIndex a).stackLimit = s.stackLimit := rfl
@[simp] theorem State.setIndex_draws (a : Word) : (s.setIndex a).draws = s.draws := rfl
@[simp] theorem State.setIndex_schedule (a : Word) : (s.setIndex a).schedule = s.schedule := rfl
@[simp] theorem State.setIndex_later (a : Word) : (s.setIndex a).later = s.later := rfl
@[simp] theorem State.reg_setIndex (a : Word) (q : RegNum) : (s.setIndex a).reg q = s.reg q := rfl

/-! ### `push` -/

@[simp] theorem State.push_mem (a : Word) : (s.push a).mem = s.mem := rfl
@[simp] theorem State.push_pc (a : Word) : (s.push a).pc = s.pc := rfl
@[simp] theorem State.push_v (a : Word) : (s.push a).v = s.v := rfl
@[simp] theorem State.push_i (a : Word) : (s.push a).i = s.i := rfl
@[simp] theorem State.push_stack (a : Word) : (s.push a).stack = a :: s.stack := rfl
@[simp] theorem State.push_dt (a : Word) : (s.push a).dt = s.dt := rfl
@[simp] theorem State.push_st (a : Word) : (s.push a).st = s.st := rfl
@[simp] theorem State.push_keys (a : Word) : (s.push a).keys = s.keys := rfl
@[simp] theorem State.push_fb (a : Word) : (s.push a).fb = s.fb := rfl
@[simp] theorem State.push_wait (a : Word) : (s.push a).wait = s.wait := rfl
@[simp] theorem State.push_halt (a : Word) : (s.push a).halt = s.halt := rfl
@[simp] theorem State.push_inputOpen (a : Word) : (s.push a).inputOpen = s.inputOpen := rfl
@[simp] theorem State.push_stackLimit (a : Word) : (s.push a).stackLimit = s.stackLimit := rfl
@[simp] theorem State.push_draws (a : Word) : (s.push a).draws = s.draws := rfl
@[simp] theorem State.push_schedule (a : Word) : (s.push a).schedule = s.schedule := rfl
@[simp] theorem State.push_later (a : Word) : (s.push a).later = s.later := rfl
@[simp] theorem State.reg_push (a : Word) (q : RegNum) : (s.push a).reg q = s.reg q := rfl

/-! ### `setStack` -/

@[simp] theorem State.setStack_mem (l : List Word) : (s.setStack l).mem = s.mem := rfl
@[simp] theorem State.setStack_pc (l : List Word) : (s.setStack l).pc = s.pc := rfl
@[simp] theorem State.setStack_v (l : List Word) : (s.setStack l).v = s.v := rfl
@[simp] theorem State.setStack_i (l : List Word) : (s.setStack l).i = s.i := rfl
@[simp] theorem State.setStack_stack (l : List Word) : (s.setStack l).stack = l := rfl
@[simp] theorem State.setStack_dt (l : List Word) : (s.setStack l).dt = s.dt := rfl
@[simp] theorem State.setStack_st (l : List Word) : (s.setStack l).st = s.st := rfl
@[simp] theorem State.setStack_keys (l : List Word) : (s.setStack l).keys = s.keys := rfl
@[simp] theorem State.setStack_fb (l : List Word) : (s.setStack l).fb = s.fb := rfl
@[simp] theorem State.setStack_wait (l : List Word) : (s.setStack l).wait = s.wait := rfl
@[simp] theorem State.setStack_halt (l : List Word) : (s.setStack l).halt = s.halt := rfl
@[simp] theorem State.setStack_inputOpen (l : List Word) : (s.setStack l).inputOpen = s.inputOpen := rfl
@[simp] theorem State.setStack_stackLimit (l : List Word) : (s.setStack l).stackLimit = s.stackLimit := rfl
@[simp] theorem State.setStack_draws (l : List Word) : (s.setStack l).draws = s.draws := rfl
@[simp] theorem State.setStack_schedule (l : List Word) : (s.setStack l).schedule = s.schedule := rfl
@[simp] theorem State.setStack_later (l : List Word) : (s.setStack l).later = s.later := rfl
@[simp] theorem State.reg_setStack (l : List Word) (q : RegNum) : (s.setStack l).reg q = s.reg q := rfl

/-! ### `setDelay` -/

@[simp] theorem State.setDelay_mem (b : Byte) : (s.setDelay b).mem = s.mem := rfl
@[simp] theorem State.setDelay_pc (b : Byte) : (s.setDelay b).pc = s.pc := rfl
@[simp] theorem State.setDelay_v (b : Byte) : (s.setDelay b).v = s.v := rfl
@[simp] theorem State.setDelay_i (b : Byte) : (s.setDelay b).i = s.i := rfl
@[simp] theorem State.setDelay_stack (b : Byte) : (s.setDelay b).stack = s.stack := rfl
@[simp] theorem State.setDelay_dt (b : Byte) : (s.setDelay b).dt = b := rfl
@[simp] theorem State.setDelay_st (b : Byte) : (s.setDelay b).st = s.st := rfl
@[simp] theorem State.setDelay_keys (b : Byte) : (s.setDelay b).keys = s.keys := rfl
@[simp] theorem State.setDelay_fb (b : Byte) : (s.setDelay b).fb = s.fb := rfl
@[simp] theorem State.setDelay_wait (b : Byte) : (s.setDelay b).wait = s.wait := rfl
@[simp] theorem State.setDelay_halt (b : Byte) : (s.setDelay b).halt = s.halt := rfl
@[simp] theorem State.setDelay_inputOpen (b : Byte) : (s.setDelay b).inputOpen = s.inputOpen := rfl
@[simp] theorem State.setDelay_stackLimit (b : Byte) : (s.setDelay b).stackLimit = s.stackLimit := rfl
@[simp] theorem State.setDelay_draws (b : Byte) : (s.setDelay b).draws = s.draws := rfl
@[simp] theorem State.setDelay_schedule (b : Byte) : (s.setDelay b).schedule = s.schedule := rfl
@[simp] theorem State.setDelay_later (b : Byte) : (s.setDelay b).later = s.later := rfl
@[simp] theorem State.reg_setDelay (b : Byte) (q : RegNum) : (s.setDelay b).reg q = s.reg q := rfl

/-! ### `setSound` -/

@[simp] theorem State.setSound_mem (b : Byte) : (s.setSound b).mem = s.mem := rfl
@[simp] theorem State.setSound_pc (b : Byte) : (s.setSound b).pc = s.pc := rfl
@[simp] theorem State.setSound_v (b : Byte) : (s.setSound b).v = s.v := rfl
@[simp] theorem State.setSound_i (b : Byte) : (s.setSound b).i = s.i := rfl
@[simp] theorem State.setSound_stack (b : Byte) : (s.setSound b).stack = s.stack := rfl
@[simp] theorem State.setSound_dt (b : Byte) : (s.setSound b).dt = s.dt := rfl
@[simp] theorem State.setSound_st (b : Byte) : (s.setSound b).st = b := rfl
@[simp] theorem State.setSound_keys (b : Byte) : (s.setSound b).keys = s.keys := rfl
@[simp] theorem State.setSound_fb (b : Byte) : (s.setSound b).fb = s.fb := rfl
@[simp] theorem State.setSound_wait (b : Byte) : (s.setSound b).wait = s.wait := rfl
@[simp] theorem State.setSound_halt (b : Byte) : (s.setSound b).halt = s.halt := rfl
@[simp] theorem State.setSound_inputOpen (b : Byte) : (s.setSound b).inputOpen = s.inputOpen := rfl
@[simp] theorem State.setSound_stackLimit (b : Byte) : (s.setSound b).stackLimit = s.stackLimit := rfl
@[simp] theorem State.setSound_draws (b : Byte) : (s.setSound b).draws = s.draws := rfl
@[simp] theorem State.setSound_schedule (b : Byte) : (s.setSound b).schedule = s.schedule := rfl
@[simp] theorem State.setSound_later (b : Byte) : (s.setSound b).later = s.later := rfl
@[simp] theorem State.reg_setSound (b : Byte) (q : RegNum) : (s.setSound b).reg q = s.reg q := rfl

/-! ### `setKeys` -/

@[simp] theorem State.setKeys_mem (m : Word) : (s.setKeys m).mem = s.mem := rfl
@[simp] theorem State.setKeys_pc (m : Word) : (s.setKeys m).pc = s.pc := rfl
@[simp] theorem State.setKeys_v (m : Word) : (s.setKeys m).v = s.v := rfl
@[simp] theorem State.setKeys_i (m : Word) : (s.setKeys m).i = s.i := rfl
@[simp] theorem State.setKeys_stack (m : Word) : (s.setKeys m).stack = s.stack := rfl
@[simp] theorem State.setKeys_dt (m : Word) : (s.setKeys m).dt = s.dt := rfl
@[simp] theorem State.setKeys_st (m : Word) : (s.setKeys m).st = s.st := rfl
@[simp] theorem State.setKeys_keys (m : Word) : (s.setKeys m).keys = m := rfl
@[simp] theorem State.setKeys_fb (m : Word) : (s.setKeys m).fb = s.fb := rfl
@[simp] theorem State.setKeys_wait (m : Word) : (s.setKeys m).wait = s.wait := rfl
@[simp] theorem State.setKeys_halt (m : Word) : (s.setKeys m).halt = s.halt := rfl
@[simp] theorem State.setKeys_inputOpen (m : Word) : (s.setKeys m).inputOpen = s.inputOpen := rfl
@[simp] theorem State.setKeys_stackLimit (m : Word) : (s.setKeys m).stackLimit = s.stackLimit := rfl
@[simp] theorem State.setKeys_draws (m : Word) : (s.setKeys m).draws = s.draws := rfl
@[simp] theorem State.setKeys_schedule (m : Word) : (s.setKeys m).schedule = s.schedule := rfl
@[simp] theorem State.setKeys_later (m : Word) : (s.setKeys m).later = s.later := rfl
@[simp] theorem State.reg_setKeys (m : Word) (q : RegNum) : (s.setKeys m).reg q = s.reg q := rfl

/-! ### `setFrame` -/

@[simp] theorem State.setFrame_mem (f : FrameBuffer) : (s.setFrame f).mem = s.mem := rfl
@[simp] theorem State.setFrame_pc (f : FrameBuffer) : (s.setFrame f).pc = s.pc := rfl
@[simp] theorem State.setFrame_v (f : FrameBuffer) : (s.setFrame f).v = s.v := rfl
@[simp] theorem State.setFrame_i (f : FrameBuffer) : (s.setFrame f).i = s.i := rfl
@[simp] theorem State.setFrame_stack (f : FrameBuffer) : (s.setFrame f).stack = s.stack := rfl
@[simp] theorem State.setFrame_dt (f : FrameBuffer) : (s.setFrame f).dt = s.dt := rfl
@[simp] theorem State.setFrame_st (f : FrameBuffer) : (s.setFrame f).st = s.st := rfl
@[simp] theorem State.setFrame_keys (f : FrameBuffer) : (s.setFrame f).keys = s.keys := rfl
@[simp] theorem State.setFrame_fb (f : FrameBuffer) : (s.setFrame f).fb = f := rfl
@[simp] theorem State.setFrame_wait (f : FrameBuffer) : (s.setFrame f).wait = s.wait := rfl
@[simp] theorem State.setFrame_halt (f : FrameBuffer) : (s.setFrame f).halt = s.halt := rfl
@[simp] theorem State.setFrame_inputOpen (f : FrameBuffer) : (s.setFrame f).inputOpen = s.inputOpen := rfl
@[simp] theorem State.setFrame_stackLimit (f : FrameBuffer) : (s.setFrame f).stackLimit = s.stackLimit := rfl
@[simp] theorem State.setFrame_draws (f : FrameBuffer) : (s.setFrame f).draws = s.draws := rfl
@[simp] theorem State.setFrame_schedule (f : FrameBuffer) : (s.setFrame f).schedule = s.schedule := rfl
@[simp] theorem State.setFrame_later (f : FrameBuffer) : (s.setFrame f).later = s.later := rfl
@[simp] theorem State.reg_setFrame (f : FrameBuffer) (q : RegNum) : (s.setFrame f).reg q = s.reg q := rfl

/-! ### `park` -/

@[simp] theorem State.park_mem (r : RegNum) : (s.park r).mem = s.mem := rfl
@[simp] theorem State.park_pc (r : RegNum) : (s.park r).pc = s.pc := rfl
@[simp] theorem State.park_v (r : RegNum) : (s.park r).v = s.v := rfl
@[simp] theorem State.park_i (r : RegNum) : (s.park r).i = s.i := rfl
@[simp] theorem State.park_stack (r : RegNum) : (s.park r).stack = s.stack := rfl
@[simp] theorem State.park_dt (r : RegNum) : (s.park r).dt = s.dt := rfl
@[simp] theorem State.park_st (r : RegNum) : (s.park r).st = s.st := rfl
@[simp] theorem State.park_keys (r : RegNum) : (s.park r).keys = s.keys := rfl
@[simp] theorem State.park_fb (r : RegNum) : (s.park r).fb = s.fb := rfl
@[simp] theorem State.park_wait (r : RegNum) : (s.park r).wait = some r := rfl
@[simp] theorem State.park_halt (r : RegNum) : (s.park r).halt = s.halt := rfl
@[simp] theorem State.park_inputOpen (r : RegNum) : (s.park r).inputOpen = s.inputOpen := rfl
@[simp] theorem State.park_stackLimit (r : RegNum) : (s.park r).stackLimit = s.stackLimit := rfl
@[simp] theorem State.park_draws (r : RegNum) : (s.park r).draws = s.draws := rfl
@[simp] theorem State.park_schedule (r : RegNum) : (s.park r).schedule = s.schedule := rfl
@[simp] theorem State.park_later (r : RegNum) : (s.park r).later = s.later := rfl
@[simp] theorem State.reg_park (r : RegNum) (q : RegNum) : (s.park r).reg q = s.reg q := rfl

/-! ### `unpark` -/

@[simp] theorem State.unpark_mem : (s.unpark).mem = s.mem := rfl
@[simp] theorem State.unpark_pc : (s.unpark).pc = s.pc := rfl
@[simp] theorem State.unpark_v : (s.unpark).v = s.v := rfl
@[simp] theorem State.unpark_i : (s.unpark).i = s.i := rfl
@[simp] theorem State.unpark_stack : (s.unpark).stack = s.stack := rfl
@[simp] theorem State.unpark_dt : (s.unpark).dt = s.dt := rfl
@[simp] theorem State.unpark_st : (s.unpark).st = s.st := rfl
@[simp] theorem State.unpark_keys : (s.unpark).keys = s.keys := rfl
@[simp] theorem State.unpark_fb : (s.unpark).fb = s.fb := rfl
@[simp] theorem State.unpark_wait : (s.unpark).wait = none := rfl
@[simp] theorem State.unpark_halt : (s.unpark).halt = s.halt := rfl
@[simp] theorem State.unpark_inputOpen : (s.unpark).inputOpen = s.inputOpen := rfl
@[simp] theorem State.unpark_stackLimit : (s.unpark).stackLimit = s.stackLimit := rfl
@[simp] theorem State.unpark_draws : (s.unpark).draws = s.draws := rfl
@[simp] theorem State.unpark_schedule : (s.unpark).schedule = s.schedule := rfl
@[simp] theorem State.unpark_later : (s.unpark).later = s.later := rfl
@[simp] theorem State.reg_unpark (q : RegNum) : (s.unpark).reg q = s.reg q := rfl

/-! ### `closeInput` -/

@[simp] theorem State.closeInput_mem : (s.closeInput).mem = s.mem := rfl
@[simp] theorem State.closeInput_pc : (s.closeInput).pc = s.pc := rfl
@[simp] theorem State.closeInput_v : (s.closeInput).v = s.v := rfl
@[simp] theorem State.closeInput_i : (s.closeInput).i = s.i := rfl
@[simp] theorem State.closeInput_stack : (s.closeInput).stack = s.stack := rfl
@[simp] theorem State.closeInput_dt : (s.closeInput).dt = s.dt := rfl
@[simp] theorem State.closeInput_st : (s.closeInput).st = s.st := rfl
@[simp] theorem State.closeInput_keys : (s.closeInput).keys = s.keys := rfl
@[simp] theorem State.closeInput_fb : (s.closeInput).fb = s.fb := rfl
@[simp] theorem State.closeInput_wait : (s.closeInput).wait = s.wait := rfl
@[simp] theorem State.closeInput_halt : (s.closeInput).halt = s.halt := rfl
@[simp] theorem State.closeInput_inputOpen : (s.closeInput).inputOpen = false := rfl
@[simp] theorem State.closeInput_stackLimit : (s.closeInput).stackLimit = s.stackLimit := rfl
@[simp] theorem State.closeInput_draws : (s.closeInput).draws = s.draws := rfl
@[simp] theorem State.closeInput_schedule : (s.closeInput).schedule = s.schedule := rfl
@[simp] theorem State.closeInput_later : (s.closeInput).later = s.later := rfl
@[simp] theorem State.reg_closeInput (q : RegNum) : (s.closeInput).reg q = s.reg q := rfl

/-! ### `setHalt` -/

@[simp] theorem State.setHalt_mem (c : Cause) : (s.setHalt c).mem = s.mem := rfl
@[simp] theorem State.setHalt_pc (c : Cause) : (s.setHalt c).pc = s.pc := rfl
@[simp] theorem State.setHalt_v (c : Cause) : (s.setHalt c).v = s.v := rfl
@[simp] theorem State.setHalt_i (c : Cause) : (s.setHalt c).i = s.i := rfl
@[simp] theorem State.setHalt_stack (c : Cause) : (s.setHalt c).stack = s.stack := rfl
@[simp] theorem State.setHalt_dt (c : Cause) : (s.setHalt c).dt = s.dt := rfl
@[simp] theorem State.setHalt_st (c : Cause) : (s.setHalt c).st = s.st := rfl
@[simp] theorem State.setHalt_keys (c : Cause) : (s.setHalt c).keys = s.keys := rfl
@[simp] theorem State.setHalt_fb (c : Cause) : (s.setHalt c).fb = s.fb := rfl
@[simp] theorem State.setHalt_wait (c : Cause) : (s.setHalt c).wait = s.wait := rfl
@[simp] theorem State.setHalt_halt (c : Cause) : (s.setHalt c).halt = some c := rfl
@[simp] theorem State.setHalt_inputOpen (c : Cause) : (s.setHalt c).inputOpen = s.inputOpen := rfl
@[simp] theorem State.setHalt_stackLimit (c : Cause) : (s.setHalt c).stackLimit = s.stackLimit := rfl
@[simp] theorem State.setHalt_draws (c : Cause) : (s.setHalt c).draws = s.draws := rfl
@[simp] theorem State.setHalt_schedule (c : Cause) : (s.setHalt c).schedule = s.schedule := rfl
@[simp] theorem State.setHalt_later (c : Cause) : (s.setHalt c).later = s.later := rfl
@[simp] theorem State.reg_setHalt (c : Cause) (q : RegNum) : (s.setHalt c).reg q = s.reg q := rfl

/-! ### `storeBytes` -/

@[simp] theorem State.storeBytes_mem (a : Nat) (bs : List Byte) : (s.storeBytes a bs).mem = s.mem.writeBytes a bs := rfl
@[simp] theorem State.storeBytes_pc (a : Nat) (bs : List Byte) : (s.storeBytes a bs).pc = s.pc := rfl
@[simp] theorem State.storeBytes_v (a : Nat) (bs : List Byte) : (s.storeBytes a bs).v = s.v := rfl
@[simp] theorem State.storeBytes_i (a : Nat) (bs : List Byte) : (s.storeBytes a bs).i = s.i := rfl
@[simp] theorem State.storeBytes_stack (a : Nat) (bs : List Byte) : (s.storeBytes a bs).stack = s.stack := rfl
@[simp] theorem State.storeBytes_dt (a : Nat) (bs : List Byte) : (s.storeBytes a bs).dt = s.dt := rfl
@[simp] theorem State.storeBytes_st (a : Nat) (bs : List Byte) : (s.storeBytes a bs).st = s.st := rfl
@[simp] theorem State.storeBytes_keys (a : Nat) (bs : List Byte) : (s.storeBytes a bs).keys = s.keys := rfl
@[simp] theorem State.storeBytes_fb (a : Nat) (bs : List Byte) : (s.storeBytes a bs).fb = s.fb := rfl
@[simp] theorem State.storeBytes_wait (a : Nat) (bs : List Byte) : (s.storeBytes a bs).wait = s.wait := rfl
@[simp] theorem State.storeBytes_halt (a : Nat) (bs : List Byte) : (s.storeBytes a bs).halt = s.halt := rfl
@[simp] theorem State.storeBytes_inputOpen (a : Nat) (bs : List Byte) : (s.storeBytes a bs).inputOpen = s.inputOpen := rfl
@[simp] theorem State.storeBytes_stackLimit (a : Nat) (bs : List Byte) : (s.storeBytes a bs).stackLimit = s.stackLimit := rfl
@[simp] theorem State.storeBytes_draws (a : Nat) (bs : List Byte) : (s.storeBytes a bs).draws = s.draws := rfl
@[simp] theorem State.storeBytes_schedule (a : Nat) (bs : List Byte) : (s.storeBytes a bs).schedule = s.schedule := rfl
@[simp] theorem State.storeBytes_later (a : Nat) (bs : List Byte) : (s.storeBytes a bs).later = s.later := rfl
@[simp] theorem State.reg_storeBytes (a : Nat) (bs : List Byte) (q : RegNum) : (s.storeBytes a bs).reg q = s.reg q := rfl

/-! ### `countDraw` -/

@[simp] theorem State.countDraw_mem : (s.countDraw).mem = s.mem := rfl
@[simp] theorem State.countDraw_pc : (s.countDraw).pc = s.pc := rfl
@[simp] theorem State.countDraw_v : (s.countDraw).v = s.v := rfl
@[simp] theorem State.countDraw_i : (s.countDraw).i = s.i := rfl
@[simp] theorem State.countDraw_stack : (s.countDraw).stack = s.stack := rfl
@[simp] theorem State.countDraw_dt : (s.countDraw).dt = s.dt := rfl
@[simp] theorem State.countDraw_st : (s.countDraw).st = s.st := rfl
@[simp] theorem State.countDraw_keys : (s.countDraw).keys = s.keys := rfl
@[simp] theorem State.countDraw_fb : (s.countDraw).fb = s.fb := rfl
@[simp] theorem State.countDraw_wait : (s.countDraw).wait = s.wait := rfl
@[simp] theorem State.countDraw_halt : (s.countDraw).halt = s.halt := rfl
@[simp] theorem State.countDraw_inputOpen : (s.countDraw).inputOpen = s.inputOpen := rfl
@[simp] theorem State.countDraw_stackLimit : (s.countDraw).stackLimit = s.stackLimit := rfl
@[simp] theorem State.countDraw_draws : (s.countDraw).draws = s.draws + 1 := rfl
@[simp] theorem State.countDraw_schedule : (s.countDraw).schedule = s.schedule := rfl
@[simp] theorem State.countDraw_later : (s.countDraw).later = s.later := rfl
@[simp] theorem State.reg_countDraw (q : RegNum) : (s.countDraw).reg q = s.reg q := rfl

/-! ### Registers -/

theorem State.reg_setReg (r q : RegNum) (b : Byte) :
    (s.setReg r b).reg q = if q = r then b else s.reg q := by
  simp only [State.reg, State.setReg, Fin.getElem_fin, Vector.getElem_set, Fin.ext_iff, eq_comm]

@[simp] theorem State.reg_setReg_same (r : RegNum) (b : Byte) : (s.setReg r b).reg r = b := by
  simp [State.reg_setReg]

theorem State.reg_setReg_ne (r : RegNum) (b : Byte) (q : RegNum) (h : q ≠ r) :
    (s.setReg r b).reg q = s.reg q := by
  simp [State.reg_setReg, h]

/-! ### Composite updates -/

theorem State.reg_resultThenFlag (x q : RegNum) (a f : Byte) :
    (s.resultThenFlag x a f).reg q = if q = vf then f else if q = x then a else s.reg q := by
  simp [State.resultThenFlag, State.reg_setReg]

theorem State.reg_flagThenResult (x q : RegNum) (f : Byte) (g : Byte → Byte) :
    (s.flagThenResult x f g).reg q =
      if q = x then g (if x = vf then f else s.reg x) else if q = vf then f else s.reg q := by
  simp [State.flagThenResult, State.reg_setReg]

/-- Both orders of the two writes change nothing but `V`. -/
theorem State.resultThenFlag_eq (x : RegNum) (a f : Byte) :
    s.resultThenFlag x a f = { s with v := (s.resultThenFlag x a f).v } := rfl

theorem State.flagThenResult_eq (x : RegNum) (f : Byte) (g : Byte → Byte) :
    s.flagThenResult x f g = { s with v := (s.flagThenResult x f g).v } := rfl

/-- A skip changes nothing but `pc`. -/
theorem skipIf_eq (c : Bool) :
    skipIf c s = { s with pc := if c then s.pc + 2#16 else s.pc } := by
  cases c <;> rfl

/-! ### Several registers at once -/

theorem State.length_regsUpTo (x : RegNum) : (s.regsUpTo x).length = x.val + 1 := by
  simp [State.regsUpTo]

/-- The `k`-th byte of a register dump is `V[k]` (R165). -/
theorem State.getElem?_regsUpTo (x k : RegNum) (h : k ≤ x) :
    (s.regsUpTo x)[k.val]? = some (s.reg k) := by
  have hk : k.val < x.val + 1 := Nat.lt_succ_of_le h
  rw [State.regsUpTo, List.getElem?_take_of_lt hk, List.getElem?_eq_getElem (by simp)]
  rfl

/-- A register after a load of the bytes `bs` from `V[n]` on (R166). -/
theorem getElem_setRegsFrom (bs : List Byte) (v : Vector Byte 16) (n : Nat) (r : RegNum) :
    (setRegsFrom v n bs)[r] =
      if n ≤ r.val ∧ r.val < n + bs.length then bs[r.val - n]?.getD 0#8 else v[r] := by
  induction bs generalizing v n with
  | nil =>
    have : ¬ (n ≤ r.val ∧ r.val < n + 0) := by omega
    simp only [setRegsFrom, List.length_nil, this, if_false]
  | cons b bs ih =>
    rw [setRegsFrom, ih]
    simp only [List.length_cons]
    by_cases h1 : r.val = n
    · have h2 : ¬ (n + 1 ≤ r.val ∧ r.val < n + 1 + bs.length) := by omega
      have h3 : n ≤ r.val ∧ r.val < n + (bs.length + 1) := by omega
      rw [if_neg h2, if_pos h3]
      simp [← h1]
    · have h4 : (v.setIfInBounds n b)[r] = v[r] := by
        simp only [Fin.getElem_fin, Vector.getElem_setIfInBounds, if_neg (Ne.symm h1)]
      rw [h4]
      by_cases h5 : n + 1 ≤ r.val ∧ r.val < n + 1 + bs.length
      · have h6 : n ≤ r.val ∧ r.val < n + (bs.length + 1) := by omega
        have h7 : r.val - n = (r.val - (n + 1)) + 1 := by omega
        rw [if_pos h5, if_pos h6, h7, List.getElem?_cons_succ]
      · have h6 : ¬ (n ≤ r.val ∧ r.val < n + (bs.length + 1)) := by omega
        rw [if_neg h5, if_neg h6]

end Sys2Proof.Machine
end

