-- ==== Sys2Proof/Laws/Step.lean ====
section
/-! SUPPORT. One lemma per shared operation that says once everything it can answer; later proofs cite
these instead of unfolding the operation. -/

namespace Sys2Proof.Machine

theorem next_inj {s t : State} : (Host.Outcome.next s : Answer) = .next t ↔ t = s :=
  ⟨fun h => by cases h; rfl, fun h => by rw [h]⟩

/-- `raise Halt(cause)` answers the state with `HALT` set and nothing else changed (R233). -/
theorem raiseHalt_next {c : Cause} {s t : State} : raiseHalt c s = .next t ↔ t = s.setHalt c :=
  next_inj

/-- The whole-range check (R65): in range it goes on, else it is the fatal condition `MemRange`. -/
theorem checkRange_next {a n : Nat} {s t : State} {k : State → Answer} :
    checkRange a n s k = .next t ↔
      (a + n ≤ 4096 ∧ k s = .next t) ∨ (4096 < a + n ∧ t = s.setHalt .memRange) := by
  by_cases h : a + n ≤ 4096
  · simp [checkRange, inRange, Config.memSize, h]
  · have h' : 4096 < a + n := by omega
    simp [checkRange, inRange, Config.memSize, h, h', raiseHalt_next]

theorem checkRange_in {a n : Nat} {s : State} {k : State → Answer} (h : a + n ≤ 4096) :
    checkRange a n s k = k s := by
  simp [checkRange, inRange, Config.memSize, h]

theorem checkRange_out {a n : Nat} {s : State} {k : State → Answer} (h : 4096 < a + n) :
    checkRange a n s k = .next (s.setHalt .memRange) := by
  have h' : ¬ a + n ≤ 4096 := by omega
  simp [checkRange, inRange, Config.memSize, h', raiseHalt]

/-- A key test (R201, R202, R203): `BadKey` above 15, else at most a skip. -/
theorem testKey_next {x : RegNum} {w : Bool} {s t : State} :
    testKey x w s = .next t ↔
      (15 < (s.reg x).toNat ∧ t = s.setHalt .badKey) ∨
      ((s.reg x).toNat ≤ 15 ∧ t = skipIf (keyHeld s (s.reg x).toNat == w) s) := by
  by_cases h : (s.reg x).toNat ≤ 15
  · have h' : ¬ 15 < (s.reg x).toNat := by omega
    simp [testKey, h, h', eq_comm]
  · have h' : 15 < (s.reg x).toNat := by omega
    simp [testKey, h', raiseHalt_next]

/-- `00EE` (R112): underflow, or the newest entry taken off the stack. -/
theorem execRet_next {s t : State} :
    execRet s = .next t ↔
      (s.stack = [] ∧ t = s.setHalt .stackUnderflow) ∨
      (∃ a rest, s.stack = a :: rest ∧ t = (s.setStack rest).setPc a) := by
  unfold execRet
  cases h : s.stack with
  | nil => simp [raiseHalt_next]
  | cons a rest => simp [eq_comm]

/-- `2NNN` (R113): overflow of a finite STACK_LIMIT, or the push and the jump. -/
theorem execCall_next {nnn : BitVec 12} {s t : State} :
    execCall nnn s = .next t ↔
      (stackFull s = true ∧ t = s.setHalt .stackOverflow) ∨
      (stackFull s = false ∧ t = (s.push s.pc).setPc (zextAddr nnn)) := by
  by_cases h : stackFull s = true
  · simp [execCall, h, raiseHalt_next]
  · simp [execCall, h, eq_comm]

/-- `FX0A` (R204, R205): park, or `InputDisconnected` when the source is closed. -/
theorem execLdVxK_next {x : RegNum} {s t : State} :
    execLdVxK x s = .next t ↔
      (s.inputOpen = false ∧ t = s.setHalt .inputDisconnected) ∨
      (s.inputOpen = true ∧ t = s.park x) := by
  by_cases h : s.inputOpen = true
  · simp [execLdVxK, h, eq_comm]
  · simp [execLdVxK, h, raiseHalt_next]

/-- `DXYN` (R186): `MemRange`, `FbRange`, or the drawing. -/
theorem execDrw_next {x y : RegNum} {n : Nat} {s t : State} :
    execDrw x y n s = .next t ↔
      (4096 < s.i.toNat + n ∧ t = s.setHalt .memRange) ∨
      (s.i.toNat + n ≤ 4096 ∧ spillsOut (originCol s x) (originRow s y) n = true ∧
        t = s.setHalt .fbRange) ∨
      (s.i.toNat + n ≤ 4096 ∧ spillsOut (originCol s x) (originRow s y) n = false ∧
        t = drawSprite x y n s) := by
  unfold execDrw
  rw [checkRange_next]
  by_cases h : spillsOut (originCol s x) (originRow s y) n = true
  · simp [h, raiseHalt_next, indexAddr, or_comm]
  · simp [h, indexAddr, or_comm, eq_comm]

/-- `FX33` (R164): `MemRange`, or the three digits stored. -/
theorem execLdB_next {x : RegNum} {s t : State} :
    execLdB x s = .next t ↔
      (s.i.toNat + 3 ≤ 4096 ∧ t = s.storeBytes s.i.toNat (bcdDigits (s.reg x))) ∨
      (4096 < s.i.toNat + 3 ∧ t = s.setHalt .memRange) := by
  unfold execLdB
  rw [checkRange_next, next_inj]
  rfl

/-- `FX55` (R165): `MemRange`, or the registers stored. -/
theorem execStoreRegs_next {x : RegNum} {s t : State} :
    execStoreRegs x s = .next t ↔
      (s.i.toNat + (x.val + 1) ≤ 4096 ∧ t = s.storeBytes s.i.toNat (s.regsUpTo x)) ∨
      (4096 < s.i.toNat + (x.val + 1) ∧ t = s.setHalt .memRange) := by
  unfold execStoreRegs
  rw [checkRange_next, next_inj]
  rfl

/-- `FX65` (R166): `MemRange`, or the registers loaded. -/
theorem execLoadRegs_next {x : RegNum} {s t : State} :
    execLoadRegs x s = .next t ↔
      (s.i.toNat + (x.val + 1) ≤ 4096 ∧
        t = s.loadRegsFrom (s.mem.readBytes s.i.toNat (x.val + 1))) ∨
      (4096 < s.i.toNat + (x.val + 1) ∧ t = s.setHalt .memRange) := by
  unfold execLoadRegs
  rw [checkRange_next, next_inj]
  rfl

/-- The rule's own form of the last-row condition (R186): row 31 is among the rows drawn, that is
`N >= 1` and `y0 + N >= 32`, and `x0 >= 57`. -/
theorem spillsOut_iff {x0 y0 n : Nat} (hy : y0 < 32) :
    spillsOut x0 y0 n = true ↔ 1 ≤ n ∧ 32 ≤ y0 + n ∧ 57 ≤ x0 := by
  rw [spillsOut, decide_eq_true_iff]
  simp only [rowsDrawn, Config.screenRows]
  omega

theorem originCol_lt (s : State) (x : RegNum) : originCol s x < 64 := Nat.mod_lt _ (by decide)

theorem originRow_lt (s : State) (y : RegNum) : originRow s y < 32 := Nat.mod_lt _ (by decide)

/-- An event that is not enabled has no effect (R260). -/
theorem runEvent_disabled {e : Event} {s : State} (h : enabled e s = false) :
    runEvent e s = .next s := by
  simp [runEvent, h]

theorem runEvent_enabled {e : Event} {s : State} (h : enabled e s = true) :
    runEvent e s = eventEffect e s := by
  simp [runEvent, h]

/-- The held mask after a key event: a mapped key's bit is updated (R248). -/
def maskAfter (s : State) (phys : PhysKey) (pressed : Bool) : Word :=
  match keyMap phys with
  | some k => updateKeys s.keys k pressed
  | none => s.keys

/-- A key event that wakes a waiting `FX0A` (R248, R249): a press of a mapped key. -/
theorem keyEvent_wakes {s : State} {phys : PhysKey} {x k : RegNum} (hw : s.wait = some x)
    (hk : keyMap phys = some k) :
    keyEvent phys true s = ((s.setKeys (maskAfter s phys true)).setReg x (keyByte k)).unpark := by
  simp [keyEvent, hk, offerKey, hw, maskAfter]

/-- Any other key event only updates the mask (R248, R249). -/
theorem keyEvent_idle {s : State} {phys : PhysKey} {pressed : Bool}
    (h : s.wait = none ∨ pressed = false ∨ keyMap phys = none) :
    keyEvent phys pressed s = s.setKeys (maskAfter s phys pressed) := by
  have hs : s.setKeys s.keys = s := rfl
  cases hk : keyMap phys <;> cases hw : s.wait <;> cases pressed <;>
    simp_all [keyEvent, offerKey, maskAfter]

/-- A disconnect that finds an `FX0A` waiting (R252). -/
theorem disconnect_waiting {s : State} (hw : s.wait ≠ none) (hh : s.halt = none) :
    disconnect s = s.closeInput.unpark.setHalt .inputDisconnected := by
  simp [disconnect, hh, Option.isSome_iff_ne_none, hw]

/-- Any other disconnect only closes the source (R252, R253). -/
theorem disconnect_idle {s : State} (h : s.wait = none ∨ s.halt ≠ none) :
    disconnect s = s.closeInput := by
  rcases h with h | h <;> simp [disconnect, h]

/-- A bit of the held mask after a transition of key `k` (R248). -/
theorem getLsbD_updateKeys (m : Word) (k : RegNum) (pressed : Bool) (j : Nat) :
    (updateKeys m k pressed).getLsbD j = if j = k.val then pressed else m.getLsbD j := by
  have hk : k.val < 16 := k.isLt
  by_cases hj : j = k.val
  · subst hj
    cases pressed <;> simp [updateKeys, hk]
  · have hj' : ¬ k.val = j := fun e => hj e.symm
    cases pressed
    · by_cases h16 : j < 16
      · simp [updateKeys, hj, h16]
      · have := BitVec.getLsbD_of_ge m j (by omega)
        simp [updateKeys, hj, this]
    · simp [updateKeys, hj, hj']

/-- What a `Step` event can answer (R90, R91). -/
theorem runStep_next {s t : State} :
    runStep s = .next t ↔
      (4095 ≤ s.pc.toNat ∧ t = s.setHalt .memRange) ∨
      (s.pc.toNat < 4095 ∧ ∃ c, decodeWord (fetchWord s) = .illegal c ∧
        t = s.advance.setHalt (causeOfIllegal c)) ∨
      (s.pc.toNat < 4095 ∧ ∃ i, decodeWord (fetchWord s) = .instr i ∧
        exec i s.advance = .next t) := by
  unfold runStep
  rw [checkRange_next]
  have e1 : s.pc.toNat + 2 ≤ 4096 ↔ s.pc.toNat < 4095 := by omega
  have e2 : 4096 < s.pc.toNat + 2 ↔ 4095 ≤ s.pc.toNat := by omega
  rw [e1, e2]
  cases h : decodeWord (fetchWord s) <;> simp [execFetched, raiseHalt_next, or_comm]

/-! ### The step of the machine -/

/-- `nextEvent` gives the event that comes next. -/
theorem nextEvent_of {e : Event} {s s0 : State} (h : EventComesNext e s s0) :
    nextEvent s = (e, s0) := by
  rcases h with ⟨h1, h2⟩ | ⟨h1, h2, h3⟩ | ⟨h1, n, h2, h3, h4⟩
  · simp only [nextEvent, h1]
    exact congrArg (Prod.mk e) h2.symm
  · simp only [nextEvent, h1, h2]
    rw [h2] at h3
    exact congrArg (Prod.mk e) h3.symm
  · simp [nextEvent, h1, h2, h3, h4]

/-- Some event always comes next. -/
theorem eventComesNext_nextEvent (s : State) :
    EventComesNext (nextEvent s).1 s (nextEvent s).2 := by
  cases hs : s.schedule with
  | cons e rest => exact .inl (by simp [nextEvent, hs])
  | nil =>
    cases hl : s.later with
    | repeating e es => exact .inr (.inl (by simp [nextEvent, hs, hl]))
    | free n => exact .inr (.inr ⟨hs, n, hl, by simp [nextEvent, hs, hl], by simp [nextEvent, hs, hl]⟩)

/-- Taking an event off changes nothing but the events to come. -/
theorem EventComesNext.same {e : Event} {s s0 : State} (h : EventComesNext e s s0) :
    s0 = { s with schedule := s0.schedule, later := s0.later } := by
  obtain ⟨-, h⟩ | ⟨-, -, h⟩ | ⟨-, n, -, -, h⟩ := h <;> rw [h]

/-- A step runs the event that comes next. -/
theorem step_of_event {e : Event} {s s0 : State} (h : EventComesNext e s s0) :
    step s = runEvent e s0 := by
  rw [step, nextEvent_of h]

/-- A step whose next event is enabled has that event's effect. -/
theorem step_enabled {e : Event} {s s0 : State} (h : EventComesNext e s s0)
    (he : enabled e s0 = true) : step s = eventEffect e s0 := by
  rw [step_of_event h, runEvent_enabled he]

/-- A step that comes to a `Step` event of a running Interpreter is its step cycle. -/
theorem step_running {s s0 : State} (h : StepComesNext s s0) (r : s0.Running) :
    step s = runStep s0 :=
  step_enabled h (by simp [enabled, stepEnabled, r.1, r.2])

/-- A run of `n + 1` steps whose first answers next goes on from there, on any machine. -/
theorem run_succ_of {M : Host.Core} {n : Nat} {s t : M.State} (h : M.step s = .next t) :
    M.run (n + 1) s = M.run n t := by
  simp [Host.Core.run, h]

/-- The same for this machine. -/
theorem run_succ {n : Nat} {s t : State} (h : step s = .next t) :
    Sys2Proof.core.run (n + 1) s = Sys2Proof.core.run n t := run_succ_of (M := Sys2Proof.core) h

end Sys2Proof.Machine
end

