-- ==== Sys2Proof/Laws/Display.lean ====
section
/-! SUPPORT. `DXYN` as flips of a list of distinct pixels of the screen (spec/43_display.md R186). -/

namespace Sys2Proof.Machine

/-- The model's last-row check is the condition in the rule's words (R186). -/
theorem spillsOut_iff_spriteSpillsOut (s : State) (x y : RegNum) (n : Nat) :
    spillsOut (originCol s x) (originRow s y) n = true ↔ spriteSpillsOut s x y n :=
  spillsOut_iff (originRow_lt s y)

/-- The pixels a sprite flips, in drawing order. -/
def spritePixels (s : State) (x y : RegNum) (n : Nat) : List Nat :=
  rowPixels (s.mem.readBytes s.i.toNat (rowsDrawn n (originRow s y)))
    (64 * originRow s y + originCol s x)

/-- They are the pixels its set bits name (R183, R184, R186). -/
theorem mem_spritePixels (s : State) (x y : RegNum) (n q : Nat) :
    q ∈ spritePixels s x y n ↔ spriteSets s x y n q := by
  have hy := originRow_lt s y
  rw [spritePixels, mem_rowPixels, Memory.length_readBytes]
  unfold spriteSets
  have e1 : originRow s y = (s.reg y).toNat % 32 := rfl
  have e2 : originCol s x = (s.reg x).toNat % 64 := rfl
  rw [← e1, ← e2]
  have hr : ∀ r, r < rowsDrawn n (originRow s y) ↔ r < n ∧ originRow s y + r ≤ 31 := by
    intro r
    simp only [rowsDrawn, Config.screenRows]
    omega
  constructor
  · rintro ⟨r, c, hc, h, rfl, hb⟩
    rw [Memory.getElem?_readBytes _ _ _ _ h] at hb
    have := (hr r).1 h
    exact ⟨r, c, this.1, this.2, hc, by omega, hb⟩
  · rintro ⟨r, c, h1, h2, hc, rfl, hb⟩
    have h := (hr r).2 ⟨h1, h2⟩
    exact ⟨r, c, hc, h, by omega, by rw [Memory.getElem?_readBytes _ _ _ _ h]; exact hb⟩

/-- They lie on the screen when the last-row condition does not hold (R186). -/
theorem spritePixels_lt {s : State} {x y : RegNum} {n : Nat} (h : ¬ spriteSpillsOut s x y n) :
    ∀ q ∈ spritePixels s x y n, q < 2048 := by
  intro q hq
  obtain ⟨r, c, h1, h2, hc, rfl, -⟩ := (mem_spritePixels s x y n q).1 hq
  unfold spriteSpillsOut at h
  omega

theorem nodup_spritePixels (s : State) (x y : RegNum) (n : Nat) : (spritePixels s x y n).Nodup :=
  nodup_rowPixels _ _

/-- The drawing is those flips, then the flag (R186). -/
theorem drawSprite_eq (s : State) (x y : RegNum) (n : Nat) :
    drawSprite x y n s =
      (s.setFrame (drawPixels (spritePixels s x y n) (s.fb, false)).1).setReg vf
        (collisionFlag (drawPixels (spritePixels s x y n) (s.fb, false)).2) := by
  simp only [drawSprite, FrameBuffer.draw, drawRows_eq]
  rfl

end Sys2Proof.Machine
end

