-- ==== Sys2Proof/Laws/Encode.lean ====
section
/-! SUPPORT. The bits of an encoded word, format by format, and the fields a decoder reads back from
each format (spec/30_encoding.md R93). -/

namespace Sys2Proof

theorem getLsbD_fmtNNN (op : BitVec 4) (nnn : BitVec 12) (k : Nat) :
    (fmtNNN op nnn).getLsbD k = if k < 12 then nnn.getLsbD k else op.getLsbD (k - 12) :=
  BitVec.getLsbD_append.trans (by by_cases h : k < 12 <;> simp [h])

theorem getLsbD_fmtXNN (op : BitVec 4) (x : RegNum) (nn : Byte) (k : Nat) :
    (fmtXNN op x nn).getLsbD k =
      if k < 8 then nn.getLsbD k
      else if k < 12 then (BitVec.ofFin x : BitVec 4).getLsbD (k - 8) else op.getLsbD (k - 12) := by
  refine (getLsbD_fmtNNN op _ k).trans ?_
  have := BitVec.getLsbD_append (x := (BitVec.ofFin x : BitVec 4)) (y := nn) (i := k)
  by_cases h8 : k < 8
  · simp only [h8, if_true, show k < 12 by omega] at this ⊢
    exact this
  · by_cases h12 : k < 12
    · simp only [h8, h12, if_true, if_false] at this ⊢
      exact this
    · simp [h8, h12]

theorem getLsbD_fmtXYN (op : BitVec 4) (x y : RegNum) (n : BitVec 4) (k : Nat) :
    (fmtXYN op x y n).getLsbD k =
      if k < 4 then n.getLsbD k
      else if k < 8 then (BitVec.ofFin y : BitVec 4).getLsbD (k - 4)
      else if k < 12 then (BitVec.ofFin x : BitVec 4).getLsbD (k - 8) else op.getLsbD (k - 12) := by
  refine (getLsbD_fmtXNN op x _ k).trans ?_
  have := BitVec.getLsbD_append (x := (BitVec.ofFin y : BitVec 4)) (y := n) (i := k)
  by_cases h4 : k < 4
  · simp only [h4, if_true, show k < 8 by omega] at this ⊢
    exact this
  · by_cases h8 : k < 8
    · simp only [h4, h8, if_true, if_false] at this ⊢
      exact this
    · simp [show ¬ k < 4 by omega, h8]

/-! ### A word is each of its formats, filled with its own fields -/

theorem ofFin_fieldX (w : Word) : BitVec.ofFin (fieldX w) = w.extractLsb' 8 4 := rfl

theorem ofFin_fieldY (w : Word) : BitVec.ofFin (fieldY w) = w.extractLsb' 4 4 := rfl

theorem fmtNNN_fields (w : Word) : fmtNNN (fieldOP w) (fieldNNN w) = w := by
  apply BitVec.eq_of_getLsbD_eq
  intro k hk
  rw [getLsbD_fmtNNN]
  simp only [fieldOP, fieldNNN]
  interval_cases k <;> simp

theorem fmtXNN_fields (w : Word) : fmtXNN (fieldOP w) (fieldX w) (fieldNN w) = w := by
  apply BitVec.eq_of_getLsbD_eq
  intro k hk
  rw [getLsbD_fmtXNN, ofFin_fieldX]
  simp only [fieldOP, fieldNN]
  interval_cases k <;> simp

theorem fmtXYN_fields (w : Word) :
    fmtXYN (fieldOP w) (fieldX w) (fieldY w) (fieldN w) = w := by
  apply BitVec.eq_of_getLsbD_eq
  intro k hk
  rw [getLsbD_fmtXYN, ofFin_fieldX, ofFin_fieldY]
  simp only [fieldOP, fieldN]
  interval_cases k <;> simp

/-- The two bytes of a word, as they lie in memory, make the word again (R61). -/
theorem wordOfBytes_extract (w : Word) :
    wordOfBytes (w.extractLsb' 8 8) (w.extractLsb' 0 8) = w := by
  apply BitVec.eq_of_getLsbD_eq
  intro k hk
  refine (BitVec.getLsbD_append (x := w.extractLsb' 8 8) (y := w.extractLsb' 0 8)).trans ?_
  by_cases h : k < 8
  · simp [h]
  · have h1 : k - 8 < 8 := by omega
    have h2 : 8 + (k - 8) = k := by omega
    simp [h, h1, h2]

/-! ### Fields of each format -/

@[simp] theorem fieldOP_fmtNNN (op : BitVec 4) (nnn : BitVec 12) : fieldOP (fmtNNN op nnn) = op := by
  apply BitVec.eq_of_getLsbD_eq
  intro k hk
  simp [fieldOP, getLsbD_fmtNNN, hk]

@[simp] theorem fieldNNN_fmtNNN (op : BitVec 4) (nnn : BitVec 12) :
    fieldNNN (fmtNNN op nnn) = nnn := by
  apply BitVec.eq_of_getLsbD_eq
  intro k hk
  simp [fieldNNN, getLsbD_fmtNNN, hk]

@[simp] theorem fieldOP_fmtXNN (op : BitVec 4) (x : RegNum) (nn : Byte) :
    fieldOP (fmtXNN op x nn) = op := by
  apply BitVec.eq_of_getLsbD_eq
  intro k hk
  simp [fieldOP, getLsbD_fmtXNN, hk, show ¬ 12 + k < 8 by omega]

@[simp] theorem fieldX_fmtXNN (op : BitVec 4) (x : RegNum) (nn : Byte) :
    fieldX (fmtXNN op x nn) = x := by
  have : (fmtXNN op x nn).extractLsb' 8 4 = BitVec.ofFin x := by
    apply BitVec.eq_of_getLsbD_eq
    intro k hk
    simp [getLsbD_fmtXNN, hk, show 8 + k < 12 by omega]
  simp [fieldX, this]

@[simp] theorem fieldNN_fmtXNN (op : BitVec 4) (x : RegNum) (nn : Byte) :
    fieldNN (fmtXNN op x nn) = nn := by
  apply BitVec.eq_of_getLsbD_eq
  intro k hk
  simp [fieldNN, getLsbD_fmtXNN, hk]

@[simp] theorem fieldOP_fmtXYN (op : BitVec 4) (x y : RegNum) (n : BitVec 4) :
    fieldOP (fmtXYN op x y n) = op := fieldOP_fmtXNN op x _

@[simp] theorem fieldX_fmtXYN (op : BitVec 4) (x y : RegNum) (n : BitVec 4) :
    fieldX (fmtXYN op x y n) = x := fieldX_fmtXNN op x _

@[simp] theorem fieldY_fmtXYN (op : BitVec 4) (x y : RegNum) (n : BitVec 4) :
    fieldY (fmtXYN op x y n) = y := by
  have : (fmtXYN op x y n).extractLsb' 4 4 = BitVec.ofFin y := by
    apply BitVec.eq_of_getLsbD_eq
    intro k hk
    simp [getLsbD_fmtXYN, hk, show 4 + k < 8 by omega]
  simp [fieldY, this]

@[simp] theorem fieldN_fmtXYN (op : BitVec 4) (x y : RegNum) (n : BitVec 4) :
    fieldN (fmtXYN op x y n) = n := by
  apply BitVec.eq_of_getLsbD_eq
  intro k hk
  simp [fieldN, getLsbD_fmtXYN, hk]

end Sys2Proof
end

