-- ==== Sys2Proof/Laws/Exec.lean ====
section
/-! SUPPORT. What one instruction can do, said once: later proofs about `exec` start from here. -/

namespace Sys2Proof.Machine

/-- What an instruction does when it takes no fatal condition: the next state `t` from the state `s`
(spec/40_control_flow.md to spec/44_keys_timers.md). Where a value is left open here (`∃ b`), the
meaning's own definition gives it. -/
def Effect (i : Instr) (s t : State) : Prop :=
  match i with
  | .cls => t = s.setFrame FrameBuffer.clear
  | .ret => ∃ a rest, s.stack = a :: rest ∧ t = (s.setStack rest).setPc a
  | .jp nnn => t = s.setPc (zextAddr nnn)
  | .call nnn => stackFull s = false ∧ t = (s.push s.pc).setPc (zextAddr nnn)
  | .jpV0 nnn => t = s.setPc (zextByte (s.reg 0) + zextAddr nnn)
  | .seImm _ _ | .sneImm _ _ | .seReg _ _ | .sneReg _ _ | .skp _ | .sknp _ =>
    ∃ c, t = skipIf c s
  | .ldImm x _ | .addImm x _ | .ldReg x _ | .orReg x _ | .andReg x _ | .xorReg x _ | .ldVxDT x =>
    ∃ b, t = s.setReg x b
  | .addReg x _ | .subReg x _ | .subnReg x _ | .shl x _ =>
    ∃ b c, t = s.resultThenFlag x b (flagByte c)
  | .shr x _ => ∃ c, t = s.flagThenResult x (flagByte c) (fun a => a >>> 1)
  | .rnd x nn => t = (s.setReg x (s.drawn &&& nn)).countDraw
  | .drw x y n => t = drawSprite x y n s
  | .ldVxK x => s.inputOpen = true ∧ t = s.park x
  | .ldDTVx x => t = s.setDelay (s.reg x)
  | .ldSTVx x => t = s.setSound (s.reg x)
  | .ldI _ | .addI _ | .ldF _ => ∃ a, t = s.setIndex a
  | .ldB x => s.i.toNat + 3 ≤ 4096 ∧ t = s.storeBytes s.i.toNat (bcdDigits (s.reg x))
  | .storeRegs x =>
    s.i.toNat + (x.val + 1) ≤ 4096 ∧ t = s.storeBytes s.i.toNat (s.regsUpTo x)
  | .loadRegs x => t = s.loadRegsFrom (s.mem.readBytes s.i.toNat (x.val + 1))

/-- What `exec` can answer: a fatal condition of the instruction, with `HALT` set and nothing else
changed (R233), or its effect, with `HALT` as it was. -/
theorem exec_cases {i : Instr} {s t : State} (h : exec i s = .next t) :
    (∃ c, mayRaise i c ∧ t = s.setHalt c) ∨ (t.halt = s.halt ∧ Effect i s t) := by
  cases i <;> simp only [exec] at h
  case ret =>
    rcases execRet_next.1 h with ⟨h1, rfl⟩ | ⟨a, r, h1, rfl⟩
    · exact .inl ⟨_, rfl, rfl⟩
    · exact .inr ⟨rfl, a, r, h1, rfl⟩
  case call =>
    rcases execCall_next.1 h with ⟨h1, rfl⟩ | ⟨h1, rfl⟩
    · exact .inl ⟨_, rfl, rfl⟩
    · exact .inr ⟨rfl, h1, rfl⟩
  case drw =>
    rcases execDrw_next.1 h with ⟨h1, rfl⟩ | ⟨h1, _, rfl⟩ | ⟨h1, _, rfl⟩
    · exact .inl ⟨_, .inl rfl, rfl⟩
    · exact .inl ⟨_, .inr rfl, rfl⟩
    · exact .inr ⟨rfl, rfl⟩
  case skp | sknp =>
    all_goals
    rcases testKey_next.1 h with ⟨h1, rfl⟩ | ⟨h1, rfl⟩
    · exact .inl ⟨_, rfl, rfl⟩
    · refine .inr ⟨?_, ⟨_, rfl⟩⟩; rw [skipIf_eq]
  case ldVxK =>
    rcases execLdVxK_next.1 h with ⟨h1, rfl⟩ | ⟨h1, rfl⟩
    · exact .inl ⟨_, rfl, rfl⟩
    · exact .inr ⟨rfl, h1, rfl⟩
  case ldB | storeRegs | loadRegs =>
    all_goals
    rcases checkRange_next.1 h with ⟨h1, h2⟩ | ⟨h1, rfl⟩
    · cases h2; first | exact .inr ⟨rfl, h1, rfl⟩ | exact .inr ⟨rfl, rfl⟩
    · exact .inl ⟨_, rfl, rfl⟩
  all_goals
    cases h
    first
      | exact .inr ⟨rfl, rfl⟩
      | exact .inr ⟨rfl, _, rfl⟩
      | exact .inr ⟨rfl, _, _, rfl⟩
      | (refine .inr ⟨?_, ⟨_, rfl⟩⟩; rw [skipIf_eq])

end Sys2Proof.Machine
end

