-- ==== Sys2Proof/Laws/PerInstr.lean ====
section
/-! SUPPORT. The family `FitsRow`: the word of an instruction lies in that instruction's own row of the
opcode table, that is `encode i & mask = match` for the mask and match columns of
spec/30_encoding.md R98. -/

namespace Sys2Proof.Laws

/-- The word of `i` selects the row of `i`. -/
def FitsRow.Statement (i : Instr) : Prop := encode i &&& rowMask i = rowMatch i

theorem fitsRow_fmtNNN (op : BitVec 4) (nnn : BitVec 12) :
    fmtNNN op nnn &&& 0xF000#16 = fmtNNN op 0#12 := by
  apply BitVec.eq_of_getLsbD_eq
  intro k hk
  simp only [BitVec.getLsbD_and, getLsbD_fmtNNN]
  interval_cases k <;> simp

theorem fitsRow_fmtXNN (op : BitVec 4) (x : RegNum) (nn : Byte) :
    fmtXNN op x nn &&& 0xF000#16 = fmtNNN op 0#12 := fitsRow_fmtNNN op _

theorem fitsRow_fmtXYN (op : BitVec 4) (x y : RegNum) (n : BitVec 4) :
    fmtXYN op x y n &&& 0xF000#16 = fmtNNN op 0#12 := fitsRow_fmtNNN op _

theorem fitsRow_fmtXNN_fixed (op : BitVec 4) (x : RegNum) (nn : Byte) :
    fmtXNN op x nn &&& 0xF0FF#16 = fmtXNN op 0 nn := by
  apply BitVec.eq_of_getLsbD_eq
  intro k hk
  simp only [BitVec.getLsbD_and, getLsbD_fmtXNN]
  interval_cases k <;> simp

theorem fitsRow_fmtXYN_fixed (op : BitVec 4) (x y : RegNum) (n : BitVec 4) :
    fmtXYN op x y n &&& 0xF00F#16 = fmtXYN op 0 0 n := by
  apply BitVec.eq_of_getLsbD_eq
  intro k hk
  simp only [BitVec.getLsbD_and, getLsbD_fmtXYN]
  interval_cases k <;> simp

theorem FitsRow.cls : FitsRow.Statement .cls := rfl

theorem FitsRow.ret : FitsRow.Statement .ret := rfl

theorem FitsRow.jp (nnn : BitVec 12) : FitsRow.Statement (.jp nnn) := (fitsRow_fmtNNN _ _).trans rfl

theorem FitsRow.call (nnn : BitVec 12) : FitsRow.Statement (.call nnn) := (fitsRow_fmtNNN _ _).trans rfl

theorem FitsRow.seImm (x : RegNum) (nn : Byte) : FitsRow.Statement (.seImm x nn) := (fitsRow_fmtXNN _ _ _).trans rfl

theorem FitsRow.sneImm (x : RegNum) (nn : Byte) : FitsRow.Statement (.sneImm x nn) := (fitsRow_fmtXNN _ _ _).trans rfl

theorem FitsRow.seReg (x : RegNum) (y : RegNum) : FitsRow.Statement (.seReg x y) := (fitsRow_fmtXYN_fixed _ _ _ _).trans rfl

theorem FitsRow.ldImm (x : RegNum) (nn : Byte) : FitsRow.Statement (.ldImm x nn) := (fitsRow_fmtXNN _ _ _).trans rfl

theorem FitsRow.addImm (x : RegNum) (nn : Byte) : FitsRow.Statement (.addImm x nn) := (fitsRow_fmtXNN _ _ _).trans rfl

theorem FitsRow.ldReg (x : RegNum) (y : RegNum) : FitsRow.Statement (.ldReg x y) := (fitsRow_fmtXYN_fixed _ _ _ _).trans rfl

theorem FitsRow.orReg (x : RegNum) (y : RegNum) : FitsRow.Statement (.orReg x y) := (fitsRow_fmtXYN_fixed _ _ _ _).trans rfl

theorem FitsRow.andReg (x : RegNum) (y : RegNum) : FitsRow.Statement (.andReg x y) := (fitsRow_fmtXYN_fixed _ _ _ _).trans rfl

theorem FitsRow.xorReg (x : RegNum) (y : RegNum) : FitsRow.Statement (.xorReg x y) := (fitsRow_fmtXYN_fixed _ _ _ _).trans rfl

theorem FitsRow.addReg (x : RegNum) (y : RegNum) : FitsRow.Statement (.addReg x y) := (fitsRow_fmtXYN_fixed _ _ _ _).trans rfl

theorem FitsRow.subReg (x : RegNum) (y : RegNum) : FitsRow.Statement (.subReg x y) := (fitsRow_fmtXYN_fixed _ _ _ _).trans rfl

theorem FitsRow.shr (x : RegNum) (y : RegNum) : FitsRow.Statement (.shr x y) := (fitsRow_fmtXYN_fixed _ _ _ _).trans rfl

theorem FitsRow.subnReg (x : RegNum) (y : RegNum) : FitsRow.Statement (.subnReg x y) := (fitsRow_fmtXYN_fixed _ _ _ _).trans rfl

theorem FitsRow.shl (x : RegNum) (y : RegNum) : FitsRow.Statement (.shl x y) := (fitsRow_fmtXYN_fixed _ _ _ _).trans rfl

theorem FitsRow.sneReg (x : RegNum) (y : RegNum) : FitsRow.Statement (.sneReg x y) := (fitsRow_fmtXYN_fixed _ _ _ _).trans rfl

theorem FitsRow.ldI (nnn : BitVec 12) : FitsRow.Statement (.ldI nnn) := (fitsRow_fmtNNN _ _).trans rfl

theorem FitsRow.jpV0 (nnn : BitVec 12) : FitsRow.Statement (.jpV0 nnn) := (fitsRow_fmtNNN _ _).trans rfl

theorem FitsRow.rnd (x : RegNum) (nn : Byte) : FitsRow.Statement (.rnd x nn) := (fitsRow_fmtXNN _ _ _).trans rfl

theorem FitsRow.drw (x : RegNum) (y : RegNum) (n : Nat) : FitsRow.Statement (.drw x y n) := (fitsRow_fmtXYN _ _ _ _).trans rfl

theorem FitsRow.skp (x : RegNum) : FitsRow.Statement (.skp x) := (fitsRow_fmtXNN_fixed _ _ _).trans rfl

theorem FitsRow.sknp (x : RegNum) : FitsRow.Statement (.sknp x) := (fitsRow_fmtXNN_fixed _ _ _).trans rfl

theorem FitsRow.ldVxDT (x : RegNum) : FitsRow.Statement (.ldVxDT x) := (fitsRow_fmtXNN_fixed _ _ _).trans rfl

theorem FitsRow.ldVxK (x : RegNum) : FitsRow.Statement (.ldVxK x) := (fitsRow_fmtXNN_fixed _ _ _).trans rfl

theorem FitsRow.ldDTVx (x : RegNum) : FitsRow.Statement (.ldDTVx x) := (fitsRow_fmtXNN_fixed _ _ _).trans rfl

theorem FitsRow.ldSTVx (x : RegNum) : FitsRow.Statement (.ldSTVx x) := (fitsRow_fmtXNN_fixed _ _ _).trans rfl

theorem FitsRow.addI (x : RegNum) : FitsRow.Statement (.addI x) := (fitsRow_fmtXNN_fixed _ _ _).trans rfl

theorem FitsRow.ldF (x : RegNum) : FitsRow.Statement (.ldF x) := (fitsRow_fmtXNN_fixed _ _ _).trans rfl

theorem FitsRow.ldB (x : RegNum) : FitsRow.Statement (.ldB x) := (fitsRow_fmtXNN_fixed _ _ _).trans rfl

theorem FitsRow.storeRegs (x : RegNum) : FitsRow.Statement (.storeRegs x) := (fitsRow_fmtXNN_fixed _ _ _).trans rfl

theorem FitsRow.loadRegs (x : RegNum) : FitsRow.Statement (.loadRegs x) := (fitsRow_fmtXNN_fixed _ _ _).trans rfl

end Sys2Proof.Laws
end

