-- ==== Sys2Proof/Laws/Schedule.lean ====
section
/-! SUPPORT. The events to come: a step takes exactly one of them, whatever it does (log entry 4). -/

namespace Sys2Proof.Machine

/-- The event that comes next is the one at place 0. -/
theorem EventComesNext.eventAt_zero {e : Event} {s s0 : State} (h : EventComesNext e s s0) :
    s.eventAt 0 = e := by
  rcases h with ⟨h1, -⟩ | ⟨h1, h2, -⟩ | ⟨h1, n, h2, h3, -⟩
  · simp [State.eventAt, h1, eventAt]
  · simp [State.eventAt, h1, h2, eventAt]
  · simp [State.eventAt, h1, h2, eventAt, h3]

/-- The others move up by one place. -/
theorem EventComesNext.eventAt_succ {e : Event} {s s0 : State} (h : EventComesNext e s s0)
    (k : Nat) : s.eventAt (k + 1) = s0.eventAt k := by
  have hs := h.same
  rcases h with ⟨h1, h2⟩ | ⟨h1, h2, h3⟩ | ⟨h1, n, h2, -, h4⟩
  · have hl : s0.later = s.later := by rw [h2]
    simp [State.eventAt, h1, eventAt, hl]
  · have hl : s0.later = s.later := by rw [h3]
    simp [State.eventAt, h1, h2, eventAt, hl]
  · have h5 : s0.schedule = [] := by rw [h4]; exact h1
    have h6 : s0.later = .free (n + 1) := by rw [h4]
    simp only [State.eventAt, h1, h2, h5, h6]
    cases k <;> simp [eventAt, Nat.add_comm, Nat.add_left_comm]

/-- No instruction touches the events to come. -/
theorem exec_keeps_events {i : Instr} {s t : State} (h : exec i s = .next t) :
    t.schedule = s.schedule ∧ t.later = s.later := by
  rcases exec_cases h with ⟨c, -, rfl⟩ | ⟨-, h⟩
  · exact ⟨rfl, rfl⟩
  unfold Effect at h
  cases i <;> simp only at h
  case ret =>
    obtain ⟨a, rest, -, rfl⟩ := h
    exact ⟨rfl, rfl⟩
  case seImm | sneImm | seReg | sneReg | skp | sknp =>
    all_goals
      obtain ⟨c, rfl⟩ := h
      rw [skipIf_eq]
      exact ⟨rfl, rfl⟩
  case addReg | subReg | subnReg | shl =>
    all_goals
      obtain ⟨b, c, rfl⟩ := h
      exact ⟨rfl, rfl⟩
  case call | ldVxK | ldB | storeRegs =>
    all_goals
      obtain ⟨-, rfl⟩ := h
      exact ⟨rfl, rfl⟩
  case cls | jp | jpV0 | rnd | drw | ldDTVx | ldSTVx | loadRegs =>
    all_goals
      subst h
      exact ⟨rfl, rfl⟩
  all_goals
    obtain ⟨b, rfl⟩ := h
    exact ⟨rfl, rfl⟩

/-- A key event only changes the mask, and at most one register and the wait. -/
theorem keyEvent_same (phys : PhysKey) (pressed : Bool) (s : State) :
    keyEvent phys pressed s =
      { s with keys := (keyEvent phys pressed s).keys, v := (keyEvent phys pressed s).v,
               wait := (keyEvent phys pressed s).wait } := by
  by_cases h : s.wait = none ∨ pressed = false ∨ keyMap phys = none
  · rw [keyEvent_idle h]
    rfl
  · obtain ⟨x, hx⟩ := Option.ne_none_iff_exists'.1 (fun e => h (.inl e))
    obtain ⟨k, hk⟩ := Option.ne_none_iff_exists'.1 (fun e => h (.inr (.inr e)))
    obtain rfl : pressed = true := by
      cases pressed
      · exact absurd (.inr (.inl rfl)) h
      · rfl
    rw [keyEvent_wakes hx hk]
    rfl

/-- A disconnect only closes the source, and at most ends a wait as a fatal condition. -/
theorem disconnect_same (s : State) :
    disconnect s = { s with inputOpen := false, wait := (disconnect s).wait,
                            halt := (disconnect s).halt } := by
  by_cases h : s.wait = none ∨ s.halt ≠ none
  · rw [disconnect_idle h]
    rfl
  · rw [disconnect_waiting (fun e => h (.inl e)) (by simpa using fun e => h (.inr e))]
    rfl

/-- No event touches the events to come. -/
theorem runEvent_keeps_events {e : Event} {s t : State} (h : runEvent e s = .next t) :
    t.schedule = s.schedule ∧ t.later = s.later := by
  cases he : enabled e s with
  | false =>
    rw [runEvent_disabled he, next_inj] at h
    rw [h]
    exact ⟨rfl, rfl⟩
  | true =>
    rw [runEvent_enabled he] at h
    cases e with
    | step =>
      rcases runStep_next.1 h with ⟨-, rfl⟩ | ⟨-, c, -, rfl⟩ | ⟨-, i, -, hi⟩
      · exact ⟨rfl, rfl⟩
      · exact ⟨rfl, rfl⟩
      · exact exec_keeps_events (s := s.advance) hi
    | tick =>
      cases h
      exact ⟨rfl, rfl⟩
    | key phys pressed =>
      cases h
      rw [keyEvent_same]
      exact ⟨rfl, rfl⟩
    | disconnect =>
      cases h
      rw [disconnect_same]
      exact ⟨rfl, rfl⟩
    | snapshot =>
      cases h
      exact ⟨rfl, rfl⟩

/-- A step takes exactly one event: those to come after it are those that followed before it. -/
theorem step_eventAt {s t : State} (h : step s = .next t) (k : Nat) :
    t.eventAt k = s.eventAt (k + 1) := by
  have hn := eventComesNext_nextEvent s
  rw [step_of_event hn] at h
  obtain ⟨h1, h2⟩ := runEvent_keeps_events h
  rw [hn.eventAt_succ, State.eventAt, State.eventAt, h1, h2]

/-- The ticks among the next `m + 1` events. -/
theorem ticksIn_succ {s t : State} (h : step s = .next t) (m : Nat) :
    s.ticksIn (m + 1) = (if s.eventAt 0 = .tick then 1 else 0) + t.ticksIn m := by
  have hf : ∀ k, decide (s.eventAt (k + 1) = .tick) = decide (t.eventAt k = .tick) := fun k => by
    rw [step_eventAt h k]
  simp only [State.ticksIn, List.range_succ_eq_map, List.countP_cons, List.countP_map,
    Function.comp_def, Nat.succ_eq_add_one, hf, decide_eq_true_eq]
  exact Nat.add_comm _ _

end Sys2Proof.Machine
end

