-- ==== Sys2Proof/Tests/Slice0.lean ====
section
/-! SUPPORT. The model's own tests. Expected results are the vectors of spec/95_test_vectors.md
(named in the docstrings: F, A, M, G, K, T, X), computed there from the rules. After them, one witness
`wit_<Name>` for every obligation that has hypotheses. -/

namespace Sys2Proof.Machine.Tests

open Sys2Proof Sys2Proof.Machine

/-! ## Well-formedness -/

/-- `N` is one hexadecimal digit: a `DXYN` with 16 rows is no instruction (R94). -/
theorem test_wf_refuses_sixteen_rows : ¬ (Instr.drw 0 0 16).WellFormed := by decide

theorem test_wf_accepts_fifteen_rows : (Instr.drw 0xF 0xF 15).WellFormed := by decide

/-! ## Decoding: every constructor, by a word written out from its pattern (R98) -/

theorem test_decode_control :
    decodeWord 0b0000000011101110#16 = .instr .ret ∧
    decodeWord 0b0001001000000100#16 = .instr (.jp 0x204) ∧
    decodeWord 0b0010101010111100#16 = .instr (.call 0xABC) ∧
    decodeWord 0b1011001100000001#16 = .instr (.jpV0 0x301) := by decide

theorem test_decode_skips :
    decodeWord 0b0011111101000010#16 = .instr (.seImm 0xF 0x42) ∧
    decodeWord 0b0100001000000111#16 = .instr (.sneImm 0x2 0x07) ∧
    decodeWord 0b0101001101000000#16 = .instr (.seReg 0x3 0x4) ∧
    decodeWord 0b1001001101000000#16 = .instr (.sneReg 0x3 0x4) := by decide

theorem test_decode_loads_and_logic :
    decodeWord 0b0110101000000010#16 = .instr (.ldImm 0xA 0x02) ∧
    decodeWord 0b0111000111111111#16 = .instr (.addImm 0x1 0xFF) ∧
    decodeWord 0b1000101010110000#16 = .instr (.ldReg 0xA 0xB) ∧
    decodeWord 0b1000101010110001#16 = .instr (.orReg 0xA 0xB) ∧
    decodeWord 0b1000101010110010#16 = .instr (.andReg 0xA 0xB) ∧
    decodeWord 0b1000101010110011#16 = .instr (.xorReg 0xA 0xB) ∧
    decodeWord 0b1100001100001111#16 = .instr (.rnd 0x3 0x0F) := by decide

theorem test_decode_arithmetic :
    decodeWord 0b1000101010110100#16 = .instr (.addReg 0xA 0xB) ∧
    decodeWord 0b1000101010110101#16 = .instr (.subReg 0xA 0xB) ∧
    decodeWord 0b1000000100100110#16 = .instr (.shr 0x1 0x2) ∧
    decodeWord 0b1000101010110111#16 = .instr (.subnReg 0xA 0xB) ∧
    decodeWord 0b1000111100011110#16 = .instr (.shl 0xF 0x1) := by decide

theorem test_decode_index_and_memory :
    decodeWord 0b1010001100000000#16 = .instr (.ldI 0x300) ∧
    decodeWord 0b1111101000011110#16 = .instr (.addI 0xA) ∧
    decodeWord 0b1111001000101001#16 = .instr (.ldF 0x2) ∧
    decodeWord 0b1111000000110011#16 = .instr (.ldB 0x0) ∧
    decodeWord 0b1111001001010101#16 = .instr (.storeRegs 0x2) ∧
    decodeWord 0b1111111001100101#16 = .instr (.loadRegs 0xE) := by decide

theorem test_decode_display :
    decodeWord 0b0000000011100000#16 = .instr .cls ∧
    decodeWord 0b1101011111001001#16 = .instr (.drw 0x7 0xC 9) := by decide

theorem test_decode_keys_and_timers :
    decodeWord 0b1110000010011110#16 = .instr (.skp 0x0) ∧
    decodeWord 0b1110010010100001#16 = .instr (.sknp 0x4) ∧
    decodeWord 0b1111001100001010#16 = .instr (.ldVxK 0x3) ∧
    decodeWord 0b1111000100000111#16 = .instr (.ldVxDT 0x1) ∧
    decodeWord 0b1111000000010101#16 = .instr (.ldDTVx 0x0) ∧
    decodeWord 0b1111001000011000#16 = .instr (.ldSTVx 0x2) := by decide

/-- X1 to X4. -/
theorem test_decode_illegal_sys :
    decodeWord 0x0000#16 = .illegal .unimplementedSys ∧
    decodeWord 0x0123#16 = .illegal .unimplementedSys ∧
    decodeWord 0x00E1#16 = .illegal .unimplementedSys ∧
    decodeWord 0x00FD#16 = .illegal .unimplementedSys := by decide

/-- X5 to X13. -/
theorem test_decode_illegal_opcode :
    decodeWord 0x5341#16 = .illegal .unknownOpcode ∧
    decodeWord 0x9341#16 = .illegal .unknownOpcode ∧
    decodeWord 0x8008#16 = .illegal .unknownOpcode ∧
    decodeWord 0x800F#16 = .illegal .unknownOpcode ∧
    decodeWord 0xE09F#16 = .illegal .unknownOpcode ∧
    decodeWord 0xE000#16 = .illegal .unknownOpcode ∧
    decodeWord 0xF000#16 = .illegal .unknownOpcode ∧
    decodeWord 0xF075#16 = .illegal .unknownOpcode ∧
    decodeWord 0xFFFF#16 = .illegal .unknownOpcode := by decide

/-- The words of two constructors, the other way. -/
theorem test_encode :
    encode (.drw 0x7 0xC 9) = 0xD7C9#16 ∧ encode (.shr 0x1 0x2) = 0x8126#16 := by decide

/-- The fetch takes the byte at the lower address as the upper half: `A300`, not `00A3` (R61). -/
theorem test_table_word : decodeTableWord 16 0xA300 = some (.ldI 0x300) := by decide

/-! ## One step -/

/-- The reset state with some registers set. -/
def withRegs (rs : List (RegNum × Byte)) : State :=
  rs.foldl (fun s r => s.setReg r.1 r.2) State.reset

/-- The reset state with `I` set. -/
def withIndex (a : Word) : State := State.reset.setIndex a

/-- The state after one step that fetches the word `w` at `pc`. -/
def after (w : Nat) (s : State) : State :=
  match step (s.withFetchWord 16 w) with
  | .next t => t
  | .fault _ => s
  | .refused _ => s

/-- The state after one step of `s` as it is. -/
def stepped (s : State) : State :=
  match step s with
  | .next t => t
  | .fault _ => s
  | .refused _ => s

/-- F1. -/
theorem test_jp : (after 0x1204 (State.reset.setPc 0x20A)).pc = 0x0204 := by decide

/-- F6: the pushed address is that of the following instruction. -/
theorem test_call :
    (after 0x220A (State.reset.setPc 0x204)).stack = [0x0206] ∧
    (after 0x220A (State.reset.setPc 0x204)).pc = 0x020A := by decide

/-- F9: a finite STACK_LIMIT is reached. -/
theorem test_call_overflow :
    let t := after 0x220A { State.reset with pc := 0x204, stackLimit := some 2, stack := [2, 1] }
    t.halt = some .stackOverflow ∧ t.pc = 0x0206 ∧ t.stack = [2, 1] := by decide

/-- F7. -/
theorem test_ret :
    let t := after 0x00EE { State.reset with pc := 0x20C, stack := [0x0206] }
    t.pc = 0x0206 ∧ t.stack = [] := by decide

/-- F8. -/
theorem test_ret_underflow :
    let t := after 0x00EE (State.reset.setPc 0x20C)
    t.halt = some .stackUnderflow ∧ t.pc = 0x020E := by decide

/-- F12: the sum is not cut to 12 bits. -/
theorem test_jpV0 : (after 0xBFFF (withRegs [(0, 0xFF)])).pc = 0x10FE := by decide

/-- F14, F15. -/
theorem test_seImm :
    (after 0x3100 State.reset).pc = 0x0204 ∧ (after 0x3100 (withRegs [(1, 4)])).pc = 0x0202 := by
  decide

/-- F16, F17. -/
theorem test_sneImm :
    (after 0x4207 (withRegs [(2, 7)])).pc = 0x0202 ∧
    (after 0x4208 (withRegs [(2, 7)])).pc = 0x0204 := by decide

/-- F18, F19. -/
theorem test_seReg :
    (after 0x5340 (withRegs [(3, 9), (4, 9)])).pc = 0x0204 ∧
    (after 0x5340 (withRegs [(3, 9), (4, 8)])).pc = 0x0202 := by decide

/-- F21, F23. -/
theorem test_sneReg :
    (after 0x9340 (withRegs [(3, 9), (4, 8)])).pc = 0x0204 ∧
    (after 0x9330 (withRegs [(3, 1)])).pc = 0x0202 := by decide

/-- A50. -/
theorem test_ldImm :
    (after 0x60AB (withRegs [(0, 0x11), (15, 0x55)])).reg 0 = 0xAB ∧
    (after 0x60AB (withRegs [(0, 0x11), (15, 0x55)])).reg 15 = 0x55 := by decide

/-- A46: it wraps and sets no flag. -/
theorem test_addImm :
    (after 0x7001 (withRegs [(0, 0xFF), (15, 0x55)])).reg 0 = 0 ∧
    (after 0x7001 (withRegs [(0, 0xFF), (15, 0x55)])).reg 15 = 0x55 := by decide

/-- A26 to A29. -/
theorem test_logic :
    (after 0x8011 (withRegs [(0, 0x0F), (1, 0xF0)])).reg 0 = 0xFF ∧
    (after 0x8012 (withRegs [(0, 0x3C), (1, 0x0F)])).reg 0 = 0x0C ∧
    (after 0x8013 (withRegs [(0, 0xFF), (1, 0x0F)])).reg 0 = 0xF0 ∧
    (after 0x8010 (withRegs [(0, 0x12), (1, 0x7E)])).reg 0 = 0x7E := by decide

/-- A1. -/
theorem test_addReg :
    (after 0x8014 (withRegs [(0, 0xC8), (1, 0x64)])).reg 0 = 0x2C ∧
    (after 0x8014 (withRegs [(0, 0xC8), (1, 0x64)])).reg 15 = 1 := by decide

/-- A30, A42: `VF` as the destination, and as the source. -/
theorem test_addReg_vf :
    (after 0x8F14 (withRegs [(15, 0xC8), (1, 0x64)])).reg 15 = 1 ∧
    (after 0x80F4 (withRegs [(0, 0xFF), (15, 0x01)])).reg 0 = 0 := by decide

/-- A6, A8. -/
theorem test_subReg :
    (after 0x8015 (withRegs [(0, 5), (1, 7)])).reg 0 = 0xFE ∧
    (after 0x8015 (withRegs [(0, 5), (1, 7), (15, 1)])).reg 15 = 0 ∧
    (after 0x8015 (withRegs [(0, 7), (1, 7)])).reg 15 = 1 := by decide

/-- A12, A13. -/
theorem test_subnReg :
    (after 0x8017 (withRegs [(0, 5), (1, 7)])).reg 0 = 2 ∧
    (after 0x8017 (withRegs [(0, 5), (1, 7)])).reg 15 = 1 ∧
    (after 0x8017 (withRegs [(0, 7), (1, 5)])).reg 15 = 0 := by decide

/-- A19, A16: `V[Y]` is ignored. -/
theorem test_shr :
    (after 0x8016 (withRegs [(0, 0xFE), (1, 0xFF)])).reg 0 = 0x7F ∧
    (after 0x8016 (withRegs [(0, 0x05)])).reg 15 = 1 := by decide

/-- A34: the flag goes first and is shifted out. -/
theorem test_shr_vf : (after 0x8F16 (withRegs [(15, 0xFF)])).reg 15 = 0 := by decide

/-- A21: the flag is 1, not 0x80. -/
theorem test_shl :
    (after 0x801E (withRegs [(0, 0xC1)])).reg 0 = 0x82 ∧
    (after 0x801E (withRegs [(0, 0xC1)])).reg 15 = 1 := by decide

/-- A38. -/
theorem test_shl_vf : (after 0x8F1E (withRegs [(15, 0x80)])).reg 15 = 1 := by decide

/-- A54, the one draw with a determined result: the mask 0. -/
theorem test_rnd_mask_zero : (after 0xC300 (withRegs [(3, 0xA7)])).reg 3 = 0 := by
  have h : ∀ b : Byte, b &&& 0#8 = 0#8 := by decide
  exact h _

/-- M2. -/
theorem test_ldI : (after 0xAFFF State.reset).i = 0x0FFF := by decide

/-- M4, M5: it wraps at 16 bits and not at the memory size. -/
theorem test_addI :
    (after 0xFA1E ((withRegs [(0xA, 1)]).setIndex 0xFFFF)).i = 0 ∧
    (after 0xFA1E ((withRegs [(0xA, 1)]).setIndex 0x0FFF)).i = 0x1000 := by decide

/-- M8, M9: no mask on `Vx`. -/
theorem test_ldF :
    (after 0xF029 (withRegs [(0, 0x0A)])).i = 0x0082 ∧
    (after 0xF029 (withRegs [(0, 0xFF)])).i = 0x054B := by decide

/-- M10. -/
theorem test_ldB :
    (after 0xF033 ((withRegs [(0, 157)]).setIndex 0x300)).mem.readBytes 0x300 4 = [1, 5, 7, 0] := by
  decide

/-- M13: nothing is written, not even the two bytes that lie in memory. -/
theorem test_ldB_past_end :
    let t := after 0xF033 ((withRegs [(0, 157)]).setIndex 4094)
    t.halt = some .memRange ∧ t.pc = 0x0202 ∧ t.mem.readBytes 4094 2 = [0, 0] := by decide

/-- M15. -/
theorem test_storeRegs :
    let t := after 0xF255 ((withRegs [(0, 0x11), (1, 0x22), (2, 0x33), (3, 0x44)]).setIndex 0x400)
    t.mem.readBytes 0x400 4 = [0x11, 0x22, 0x33, 0] ∧ t.i = 0x400 := by decide

/-- M21. -/
theorem test_loadRegs :
    let t := after 0xF265 (((withRegs [(3, 0x99)]).setIndex 0x300).storeBytes 0x300 [1, 5, 7, 8])
    t.reg 0 = 1 ∧ t.reg 1 = 5 ∧ t.reg 2 = 7 ∧ t.reg 3 = 0x99 := by decide

/-- M24: the font is readable memory. -/
theorem test_loadRegs_font : (after 0xF065 (withIndex 0x50)).reg 0 = 0xF0 := by decide

/-- G1. -/
theorem test_cls :
    (after 0x00E0 { State.reset with fb := Vector.replicate 256 0xFF }).fb[17]? = some 0 := by
  decide

set_option maxRecDepth 4000 in
/-- G6: bits past column 63 go to the next row. -/
theorem test_drw_spill :
    let t := after 0xD011 (((withRegs [(0, 60)]).setIndex 0x300).storeBytes 0x300 [0xFF])
    t.fb[7]? = some 0x0F ∧ t.fb[8]? = some 0xF0 ∧ t.reg vf = 0 := by decide

set_option maxRecDepth 4000 in
/-- G4: a collision. -/
theorem test_drw_collision :
    let t := after 0xD011
      { ((withRegs [(0, 4)]).setIndex 0x300).storeBytes 0x300 [0xFF] with
        fb := FrameBuffer.clear.set 0 0x08 }
    t.fb[0]? = some 0x07 ∧ t.fb[1]? = some 0xF0 ∧ t.reg vf = 1 := by decide

/-- K5, K2. -/
theorem test_skp :
    (after 0xE09E ((withRegs [(0, 15)]).setKeys 0x8000)).pc = 0x0204 ∧
    (after 0xE09E ((withRegs [(0, 5)]).setKeys 0x0010)).pc = 0x0202 := by decide

/-- K3, K8. -/
theorem test_sknp :
    (after 0xE0A1 ((withRegs [(0, 5)]).setKeys 0x0010)).pc = 0x0204 ∧
    (after 0xE0A1 (withRegs [(0, 0xFF)])).halt = some .badKey := by decide

/-- K14: the park. -/
theorem test_ldVxK_parks :
    (after 0xF30A State.reset).wait = some 3 ∧ (after 0xF30A State.reset).pc = 0x0202 := by decide

/-- K14: the wake by the key `W`. -/
theorem test_ldVxK_wakes :
    let t := stepped { State.reset.park 3 with schedule := [.key .keyW true] }
    t.reg 3 = 5 ∧ t.wait = none ∧ t.keys = 0x0020 := by decide

/-- T2, T5. -/
theorem test_delay_timer :
    (after 0xF107 (State.reset.setDelay 0x3C)).reg 1 = 0x3C ∧
    (after 0xF015 (State.reset.setDelay 9)).dt = 0 := by decide

/-- T3. -/
theorem test_sound_timer : (after 0xF218 (withRegs [(2, 0x10)])).st = 0x10 := by decide

/-- T4. -/
theorem test_tick :
    let t := stepped { State.reset.setDelay 1 with schedule := [.tick] }
    t.dt = 0 ∧ t.st = 0 := by decide

/-- K11: a release clears its bit and no other. -/
theorem test_key_release :
    (stepped { State.reset.setKeys 0x9000 with schedule := [.key .keyV false] }).keys = 0x1000 := by
  decide

/-- The step from `State.reset` itself: zeroed memory is an illegal word (X1). -/
theorem test_step_from_reset :
    (stepped State.reset).halt = some .unimplementedSys ∧ (stepped State.reset).pc = 0x0202 := by
  decide

/-! ## Witnesses: a concrete state and operands that meet the hypotheses of each obligation -/

theorem wit_DecodeOfEncodedInstruction :
    (Instr.drw 0 0 0).WellFormed ∧ (Instr.drw 0xF 0xF 15).WellFormed ∧
    (Instr.ldB 0xF).WellFormed := by decide

/-- The second word has an ignored digit that is not 0. -/
theorem wit_EncodeOfDecodedWord :
    decodeWord 0x00EE#16 = .instr .ret ∧ decodeWord 0x81F6#16 = .instr (.shr 0x1 0xF) := by decide

theorem wit_StepRunsTheDecodedInstruction :
    let s := (State.reset.setPc 4094).withFetchWord 16 0x6A02
    StepComesNext s { s with schedule := [] } ∧
    StepComesNext State.reset State.reset ∧
    StepComesNext { s with schedule := [.step, .tick] } { s with schedule := [.tick] } ∧
    s.Running ∧ s.pc.toNat ≤ 4094 ∧
    decode [s.mem.read s.pc.toNat, s.mem.read (s.pc.toNat + 1)] = .instr (.ldImm 0xA 2) [] :=
  ⟨.inl ⟨rfl, rfl⟩, .inr (.inl ⟨rfl, rfl, rfl⟩), .inl ⟨rfl, rfl⟩, by decide, by decide, by decide⟩

/-- One state for each clause. -/
theorem wit_StepHaltsBeforeExecuting :
    let s := { (State.reset.setPc 4094).withFetchWord 16 0x5341 with schedule := [] }
    let e := State.reset.setPc 4095
    (StepComesNext State.reset State.reset ∧ State.reset.Running ∧ State.reset.pc.toNat ≤ 4094 ∧
      decodeWord (fetchWord State.reset) = .illegal .unimplementedSys) ∧
    (StepComesNext s s ∧ s.Running ∧ s.pc.toNat ≤ 4094 ∧
      decodeWord (fetchWord s) = .illegal .unknownOpcode) ∧
    (StepComesNext e e ∧ e.Running ∧ 4095 ≤ e.pc.toNat) :=
  ⟨⟨.inr (.inl ⟨rfl, rfl, rfl⟩), by decide, by decide, by decide⟩,
   ⟨.inr (.inl ⟨rfl, rfl, rfl⟩), by decide, by decide, by decide⟩,
   ⟨.inr (.inl ⟨rfl, rfl, rfl⟩), by decide, by decide⟩⟩

theorem reset_like_inv (s : State) (hm : s.mem = []) (hp : s.pc = 0x200) (hs : s.stack = [])
    (hw : s.wait ≠ none → s.halt = none ∧ s.inputOpen = true) : s.Inv := by
  refine ⟨?_, ?_, ?_, ?_, hw⟩
  · rw [hm]
    exact Memory.wf_nil
  · rw [hp]
    decide
  · rw [hs]
    exact fun a h => nomatch h
  · intro l _
    rw [hs]
    exact Nat.zero_le l

theorem eventAt_repeating_one (e : Event) (k : Nat) : eventAt k [] (.repeating e []) = e := by
  induction k with
  | zero => rfl
  | succ k ih => exact ih

/-- A tick and no step ever: the ticks keep coming and nothing is executed. -/
def onlyTicks : State := { State.reset.setDelay 5 with later := .repeating .tick [] }

theorem onlyTicks_executes_nothing (k : Nat) (u : State) (i : Instr)
    (h : Sys2Proof.core.run k onlyTicks = .next u) : ¬ Executes u i := by
  have inv : ∀ (k : Nat) (s u : State), (∀ n, s.eventAt n = .tick) →
      Sys2Proof.core.run k s = .next u → ∀ n, u.eventAt n = .tick := by
    intro k
    induction k with
    | zero =>
      intro s u hs hu
      cases hu
      exact hs
    | succ k ih =>
      intro s u hs hu
      have h1 : step s = .next (tick (nextEvent s).2) := by
        have hn := eventComesNext_nextEvent s
        have he : (nextEvent s).1 = .tick := hn.eventAt_zero.symm.trans (hs 0)
        rw [he] at hn
        exact step_enabled hn rfl
      rw [run_succ h1] at hu
      exact ih _ u (fun n => (step_eventAt h1 n).trans (hs (n + 1))) hu
  rintro ⟨s0, hs, -⟩
  have h0 := inv k onlyTicks u (fun n => eventAt_repeating_one .tick n) h 0
  rw [EventComesNext.eventAt_zero hs] at h0
  cases h0

/-- Steps for ever; ticks for ever; and a parked machine to which a press, or a disconnect, comes after
a tick. -/
theorem wit_ProgressUnderFairness :
    let p := { State.reset.park 3 with schedule := [.tick, .key .keyV true] }
    let d := { State.reset.park 3 with schedule := [.tick, .disconnect] }
    (State.reset.StepsKeepComing ∧ State.reset.Running) ∧
    (onlyTicks.TicksKeepComing ∧
      (∀ k u x, Sys2Proof.core.run k onlyTicks = .next u → ¬ Executes u (.ldDTVx x)) ∧
      ∀ k u x, Sys2Proof.core.run k onlyTicks = .next u → ¬ Executes u (.ldSTVx x)) ∧
    (p.Inv ∧ p.Parked ∧ p.WakeComes) ∧ (d.Inv ∧ d.Parked ∧ d.WakeComes) :=
  ⟨⟨fun n => ⟨n, Nat.le_refl n, eventAt_repeating_one .step n⟩, by decide⟩,
   ⟨fun n => ⟨n, Nat.le_refl n, eventAt_repeating_one .tick n⟩,
    fun k u _ h => onlyTicks_executes_nothing k u _ h,
    fun k u _ h => onlyTicks_executes_nothing k u _ h⟩,
   ⟨reset_like_inv _ rfl rfl rfl (by decide), by decide, 1, .inr ⟨.keyV, rfl, by decide⟩⟩,
   ⟨reset_like_inv _ rfl rfl rfl (by decide), by decide, 1, .inl rfl⟩⟩

/-- Halted, parked, and the two events of a closed source. -/
theorem wit_DisabledEventHasNoEffect :
    let h := State.reset.setHalt .badKey
    let p := State.reset.park 3
    let c := State.reset.closeInput
    (StepComesNext h h ∧ h.Halted) ∧ (StepComesNext p p ∧ p.Parked) ∧
    (c.inputOpen = false ∧ EventComesNext (.key .keyQ true)
      { c with schedule := [.key .keyQ true, .tick] } { c with schedule := [.tick] }) ∧
    (c.inputOpen = false ∧ EventComesNext .disconnect { c with schedule := [.disconnect] } c) :=
  ⟨⟨.inr (.inl ⟨rfl, rfl, rfl⟩), by decide⟩, ⟨.inr (.inl ⟨rfl, rfl, rfl⟩), by decide⟩,
   ⟨rfl, .inl ⟨rfl, rfl⟩⟩, ⟨rfl, .inl ⟨rfl, rfl⟩⟩⟩

theorem wit_WithFetchWordRunsTheWord :
    (State.reset.setPc 4094).pc.toNat ≤ 4094 ∧
    decodeTableWord 16 0xFF65 = some (.loadRegs 0xF) := by decide

/-- A state of the invariant at its bounds: the largest `pc`, the smallest and the largest return
address, a full stack, a listed byte of memory, parked. -/
def edgeState : State :=
  { State.reset with
    mem := [(0x300, 5)], pc := 0x10FE, stack := [4096, 2], stackLimit := some 2, wait := some 3 }

theorem edgeState_inv : edgeState.Inv := by
  refine ⟨⟨List.pairwise_singleton _ _, ?_⟩, by decide, ?_, ?_, by decide⟩
  · intro c hc
    obtain rfl := List.mem_singleton.1 hc
    exact ⟨by decide, by rw [unlisted_zero _ (by decide)]; decide⟩
  · intro a ha
    have hs : a ∈ [4096#16, 2#16] := ha
    simp only [List.mem_cons, List.not_mem_nil, or_false] at hs
    rcases hs with rfl | rfl <;> decide
  · intro l hl
    cases hl
    decide

theorem wit_StepKeepsInvariant : edgeState.Inv ∧ ∃ t, step edgeState = .next t :=
  ⟨edgeState_inv, _, rfl⟩

/-- A fatal condition after the advance, and the fetch past the end, which keeps `pc`. -/
theorem wit_FatalConditionsArePrecise :
    let s := (State.reset.setPc 4094).withFetchWord 16 0x00EE
    let e := State.reset.setPc 4095
    (StepComesNext s { s with schedule := [] } ∧ s.Running ∧ step s = .next (stepped s) ∧
      (stepped s).Halted) ∧
    (StepComesNext e e ∧ e.Running ∧ step e = .next (stepped e) ∧ (stepped e).Halted) :=
  ⟨⟨.inl ⟨rfl, rfl⟩, by decide, rfl, by decide⟩,
   ⟨.inr (.inl ⟨rfl, rfl, rfl⟩), by decide, rfl, by decide⟩⟩

theorem wit_HaltedMachineIsFrozen :
    let s := { State.reset.setHalt .memRange with schedule := [.tick], dt := 1 }
    s.Inv ∧ s.Halted ∧ ∃ t, step s = .next t :=
  ⟨reset_like_inv _ rfl rfl rfl (by decide), by decide, _, rfl⟩

/-- A wait that goes on, one that a press ends, and one that a disconnect ends. -/
theorem wit_ParkedMachineWaits :
    let p := State.reset.park 0xF
    let k := { p with schedule := [.key .keyV true] }
    let d := { p with schedule := [.disconnect] }
    (p.Inv ∧ p.wait = some 0xF ∧ ∃ t, step p = .next t) ∧
    (k.Inv ∧ k.wait = some 0xF ∧ ∃ t, step k = .next t) ∧
    (d.Inv ∧ d.wait = some 0xF ∧ ∃ t, step d = .next t) :=
  ⟨⟨reset_like_inv _ rfl rfl rfl (by decide), rfl, _, rfl⟩,
   ⟨reset_like_inv _ rfl rfl rfl (by decide), rfl, _, rfl⟩,
   ⟨reset_like_inv _ rfl rfl rfl (by decide), rfl, _, rfl⟩⟩

/-- Nothing written, and a register just past the last one loaded. -/
theorem wit_RegistersKeptOutsideDestinations :
    (∃ t, exec .cls State.reset = .next t) ∧ ¬ mayWriteReg .cls 0 ∧
    (∃ t, exec (.loadRegs 0xE) (withIndex 0x50) = .next t) ∧ ¬ mayWriteReg (.loadRegs 0xE) 0xF :=
  ⟨⟨_, rfl⟩, id, ⟨_, rfl⟩, by unfold mayWriteReg; decide⟩

/-- The bytes at both ends of what `FX33` stores, and an instruction that stores nothing. -/
theorem wit_MemoryKeptOutsideStoredBytes :
    let s := withIndex 4093
    (∃ t, exec (.ldB 0) s = .next t) ∧
    ¬ (indexAddr s ≤ 4092 ∧ 4092 < indexAddr s + bytesStored (.ldB 0)) ∧
    ¬ (indexAddr s ≤ 4096 ∧ 4096 < indexAddr s + bytesStored (.ldB 0)) ∧
    (∃ t, exec .cls s = .next t) ∧
    ¬ (indexAddr s ≤ 4093 ∧ 4093 < indexAddr s + bytesStored .cls) :=
  ⟨⟨_, rfl⟩, by decide, by decide, ⟨_, rfl⟩, by decide⟩

theorem wit_SpecialRegistersKept :
    ∃ t, exec (.ldImm 0xF 0xFF) State.reset = .next t := ⟨_, rfl⟩

theorem wit_CausesRaisedOnlyByTheirInstructions :
    (∃ t, exec .ret State.reset = .next t ∧ t.halt ≠ State.reset.halt) ∧
    ∃ t, exec .cls State.reset = .next t ∧ t.halt = State.reset.halt :=
  ⟨⟨_, rfl, by decide⟩, ⟨_, rfl, rfl⟩⟩

/-- `VF` as the destination, and a drawing of no rows. -/
theorem wit_FlagIsZeroOrOne :
    let s := withRegs [(15, 0xC8)]
    (∃ t, exec (.shr 0xF 1) s = .next t ∧ s.halt = none ∧ t.halt = none) ∧
    ∃ t, exec (.drw 0xF 1 0) s = .next t ∧ s.halt = none ∧ t.halt = none :=
  ⟨⟨_, rfl, rfl, rfl⟩, ⟨_, rfl, rfl, rfl⟩⟩

theorem wit_OtherAgentsKeepCpuState :
    (Event.tick ≠ .step ∧ ∃ t, runEvent .tick State.reset = .next t) ∧
    (Event.key .keyV true ≠ .step ∧
      ∃ t, runEvent (.key .keyV true) (State.reset.park 3) = .next t) :=
  ⟨⟨by decide, _, rfl⟩, ⟨by decide, _, rfl⟩⟩

theorem wit_SoundTimerIsUnobserved :
    ∃ t, exec (.ldSTVx 2) (withRegs [(2, 0x10)]) = .next t := ⟨_, rfl⟩

/-- The longest image that fits. -/
theorem wit_ResetLoadsFontAndProgram : (List.replicate 3584 (0xFF#8)).length ≤ 3584 := by
  rw [List.length_replicate]

/-- The shortest that does not. -/
theorem wit_ResetRefusesLongImage : 3584 < (List.replicate 3585 (0xFF#8)).length := by
  rw [List.length_replicate]
  decide

theorem wit_DefaultResetIsReset : ∃ font : Vector Byte 80, font.toList = defaultFont :=
  ⟨⟨defaultFont.toArray, by decide⟩, by simp⟩

theorem wit_ReturnPopsTheStack :
    { State.reset with stack := [4096, 2] }.stack = 4096 :: [2] ∧ State.reset.stack = [] :=
  ⟨rfl, rfl⟩

/-- No limit, one entry below the limit, and the limit reached. -/
theorem wit_CallPushesTheFollowingAddress :
    let u := State.reset
    let s := { State.reset with stackLimit := some 1 }
    let f := { State.reset with stackLimit := some 1, stack := [2] }
    (∀ l, u.stackLimit = some l → u.stack.length ≠ l) ∧
    (∀ l, s.stackLimit = some l → s.stack.length ≠ l) ∧
    f.stackLimit = some f.stack.length := by
  refine ⟨?_, ?_, rfl⟩
  · intro l hl
    cases hl
  · intro l hl
    cases hl
    decide

/-- The last place in memory for three bytes. -/
theorem wit_BcdStoresThreeDigits : (withIndex 4093).i.toNat + 2 ≤ 4095 := by decide

/-- All sixteen registers at the end of memory, and one at its last byte. -/
theorem wit_RegisterDumpStoresInOrder :
    (withIndex 4080).i.toNat + (0xF : RegNum).val ≤ 4095 ∧
    (withIndex 4095).i.toNat + (0x0 : RegNum).val ≤ 4095 := by decide

theorem wit_RegisterLoadReadsInOrder :
    (withIndex 4080).i.toNat + (0xF : RegNum).val ≤ 4095 ∧
    (withIndex 4095).i.toNat + (0x0 : RegNum).val ≤ 4095 := by decide

theorem wit_DumpThenLoadRestores :
    let s := (withRegs [(0, 0x11), (15, 0x22)]).setIndex 4080
    s.i.toNat + (0xF : RegNum).val ≤ 4095 ∧
    ∃ t u w, exec (.storeRegs 0xF) s = .next t ∧ u = t.setReg 0 0 ∧ u.i = t.i ∧
      (∀ a, s.i.toNat ≤ a → a ≤ s.i.toNat + (0xF : RegNum).val → u.mem.read a = t.mem.read a) ∧
      exec (.loadRegs 0xF) u = .next w := by
  refine ⟨by decide, _, _, _, rfl, rfl, rfl, fun _ _ _ => rfl, rfl⟩

/-- Each clause one byte past the end of memory. -/
theorem wit_AccessPastTheEndHalts :
    (withIndex 4094).i.toNat + 2 > 4095 ∧
    (withIndex 4081).i.toNat + (0xF : RegNum).val > 4095 ∧
    (withIndex 4096).i.toNat + (0x0 : RegNum).val > 4095 ∧
    (withIndex 4097).i.toNat + 0 > 4096 := by decide

theorem wit_StoredBytesAreFetched :
    let s := { withRegs [(0, 0x12), (1, 0x04)] with i := 4094, pc := 4094 }
    s.i.toNat + (0x1 : RegNum).val ≤ 4095 ∧ (1 : RegNum).val = (0 : RegNum).val + 1 ∧
    (1 : RegNum) ≤ 1 ∧
    ∃ t, exec (.storeRegs 1) s = .next t ∧ t.pc.toNat = s.i.toNat + (0 : RegNum).val :=
  ⟨by decide, by decide, by decide, _, rfl, by decide⟩

/-- The last sprite byte at the end of memory; no row 31, or `x0 = 56`, or no rows. -/
theorem wit_DrawXorsThePixels :
    let a := (withRegs [(0, 57), (1, 30)]).setIndex 4095
    let b := (withRegs [(0, 56), (1, 31)]).setIndex 4095
    let c := (withRegs [(0, 63), (1, 31)]).setIndex 4096
    (a.i.toNat + 1 ≤ 4096 ∧ ¬ spriteSpillsOut a 0 1 1) ∧
    (b.i.toNat + 1 ≤ 4096 ∧ ¬ spriteSpillsOut b 0 1 1) ∧
    (c.i.toNat + 0 ≤ 4096 ∧ ¬ spriteSpillsOut c 0 1 0) := by
  unfold spriteSpillsOut
  decide

theorem wit_DrawPastTheLastByteHalts :
    let a := (withRegs [(0, 57), (1, 31)]).setIndex 4095
    let b := (withRegs [(0, 57), (1, 30)]).setIndex 4094
    (a.i.toNat + 1 ≤ 4096 ∧ spriteSpillsOut a 0 1 1) ∧
    (b.i.toNat + 2 ≤ 4096 ∧ spriteSpillsOut b 0 1 2) := by
  unfold spriteSpillsOut
  decide

theorem wit_DrawRowIsBytewise :
    (56 < 64 ∧ 31 < 32 ∧ (56 < 57 ∨ 31 < 31)) ∧ (63 < 64 ∧ 30 < 32 ∧ (63 < 57 ∨ 30 < 31)) := by
  decide

set_option maxRecDepth 8000 in
theorem wit_DrawTwiceRestores :
    let s := ((withRegs [(0, 60)]).setIndex 0x300).storeBytes 0x300 [0xFF]
    s.i.toNat + 1 ≤ 4096 ∧ ¬ spriteSpillsOut s 0 1 1 ∧
    ∃ t t' u, exec (.drw 0 1 1) s = .next t ∧ t' = t ∧ t'.fb = t.fb ∧ t'.reg 0 = s.reg 0 ∧
      t'.reg 1 = s.reg 1 ∧ t'.i = s.i ∧ (∀ a, t'.mem.read a = s.mem.read a) ∧
      exec (.drw 0 1 1) t' = .next u := by
  refine ⟨by decide, by unfold spriteSpillsOut; decide, _, _, _, rfl, rfl, rfl, rfl, rfl, rfl,
    fun _ => rfl, rfl⟩

/-- Both sides of the bound on the key number. -/
theorem wit_KeyTestsSampleTheMask :
    ((withRegs [(0, 15)]).reg 0).toNat ≤ 15 ∧ ((withRegs [(0, 16)]).reg 0).toNat > 15 := by decide

theorem wit_KeyWaitParks :
    State.reset.inputOpen = true ∧ State.reset.closeInput.inputOpen = false := by decide

theorem wit_KeyPressCompletesTheWait :
    let s0 := { State.reset.park 0xF with schedule := [.tick] }
    let s := { s0 with schedule := [.key .keyV true, .tick] }
    s.inputOpen = true ∧ s.wait = some 0xF ∧ keyMap .keyV = some 0xF ∧
    EventComesNext (.key .keyV true) s s0 :=
  ⟨rfl, rfl, rfl, .inl ⟨rfl, rfl⟩⟩

/-- Nobody waits; a release while parked, from the repeated events; an unmapped key while parked. -/
theorem wit_OtherKeyEventsOnlyUpdateTheMask :
    let r := State.reset
    let p := State.reset.park 0
    let q := { p with later := .repeating (.key .keyX false) [] }
    (r.inputOpen = true ∧ r.wait = none ∧
      EventComesNext (.key .keyX true) { r with schedule := [.key .keyX true] } r) ∧
    (q.inputOpen = true ∧ q.wait ≠ none ∧ EventComesNext (.key .keyX false) q q) ∧
    (p.inputOpen = true ∧ keyMap (.other 7) = none ∧
      EventComesNext (.key (.other 7) true) { p with schedule := [.key (.other 7) true] } p) :=
  ⟨⟨rfl, rfl, .inl ⟨rfl, rfl⟩⟩, ⟨rfl, by decide, .inr (.inl ⟨rfl, rfl, rfl⟩)⟩,
   ⟨rfl, rfl, .inl ⟨rfl, rfl⟩⟩⟩

theorem wit_DisconnectEndsTheWait :
    let w := State.reset.park 3
    let n := State.reset
    (w.inputOpen = true ∧ EventComesNext .disconnect { w with schedule := [.disconnect] } w ∧
      w.wait ≠ none ∧ w.halt = none) ∧
    (n.inputOpen = true ∧ EventComesNext .disconnect { n with schedule := [.disconnect] } n ∧
      (n.wait = none ∨ n.halt ≠ none)) :=
  ⟨⟨rfl, .inl ⟨rfl, rfl⟩, by decide, rfl⟩, ⟨rfl, .inl ⟨rfl, rfl⟩, by decide⟩⟩

/-- A timer at 1 and a timer at 0; a tick of the free events, if the next of them is one. -/
theorem wit_TickCountsDown :
    let s := State.reset.setDelay 1
    (EventComesNext .tick { s with schedule := [.tick] } s ∧ s.dt.toNat > 0 ∧ s.st.toNat = 0) ∧
    (Config.laterEvent 0 = .tick →
      EventComesNext .tick { s with later := .free 0 } { s with later := .free 1 }) :=
  ⟨⟨.inl ⟨rfl, rfl⟩, by decide, by decide⟩, fun h => .inr (.inr ⟨rfl, 0, rfl, h, rfl⟩)⟩

/-- Nothing executed at all, and all the events ticks. -/
theorem wit_TimersAfterManyTicks :
    (∀ k u x, k < 6 → Sys2Proof.core.run k onlyTicks = .next u → ¬ Executes u (.ldDTVx x)) ∧
    (∀ k u x, k < 6 → Sys2Proof.core.run k onlyTicks = .next u → ¬ Executes u (.ldSTVx x)) ∧
    ∀ k < 6, onlyTicks.eventAt k = .tick :=
  ⟨fun k u _ _ h => onlyTicks_executes_nothing k u _ h,
   fun k u _ _ h => onlyTicks_executes_nothing k u _ h,
   fun k _ => eventAt_repeating_one .tick k⟩

/-- The events of a schedule, then those that repeat. -/
theorem test_eventAt :
    let s := { State.reset with schedule := [.snapshot], later := .repeating .step [.tick] }
    s.eventAt 0 = .snapshot ∧ s.eventAt 1 = .step ∧ s.eventAt 2 = .tick ∧ s.eventAt 3 = .step ∧
    s.ticksIn 5 = 2 := by decide

theorem wit_SnapshotReadsTheFramebuffer :
    EventComesNext .snapshot { State.reset with schedule := [.snapshot, .tick] }
      { State.reset with schedule := [.tick] } := .inl ⟨rfl, rfl⟩

end Sys2Proof.Machine.Tests
end

section
/-! The fetch is big-endian (spec/20_memory.md R61). -/

namespace Sys2Proof

/-- R61: the first byte carries the weight 256. The shifted upper byte and the lower byte share no
bit, so joining them is adding them. -/
theorem wordOfBytes_toNat (hi lo : Byte) :
    (wordOfBytes hi lo).toNat = 256 * hi.toNat + lo.toNat := by
  calc (wordOfBytes hi lo).toNat
      = hi.toNat <<< 8 ||| lo.toNat := BitVec.toNat_append hi lo
    _ = hi.toNat <<< 8 + lo.toNat := (Nat.shiftLeft_add_eq_or_of_lt lo.isLt hi.toNat).symm
    _ = 256 * hi.toNat + lo.toNat := by rw [Nat.shiftLeft_eq, Nat.mul_comm]

end Sys2Proof

namespace Sys2Proof.Machine

/-- Settles O6: the fetched word is the word of the bytes at `pc` and `pc + 1`. -/
theorem fetchIsBigEndian : Obligations.FetchIsBigEndian := fun s =>
  wordOfBytes_toNat (s.mem.read s.pc.toNat) (s.mem.read (s.pc.toNat + 1))

end Sys2Proof.Machine
end

section
/-! Return and the register skips (spec/40_control_flow.md R112, R115 to R118). -/

namespace Sys2Proof.Machine

/-- `00EE` runs `execRet`, whose answers `execRet_next` lists. -/
theorem exec_ret (s : State) : exec .ret s = execRet s := rfl

/-- Settles O30: each shape of the stack selects one of the two answers of `execRet_next`. -/
theorem returnPopsTheStack : Obligations.ReturnPopsTheStack := by
  intro s
  rw [exec_ret]
  constructor
  · intro a rest hstack
    exact execRet_next.mpr (.inr ⟨a, rest, hstack, rfl⟩)
  · intro hempty
    exact execRet_next.mpr (.inl ⟨hempty, rfl⟩)

/-- A skip on a decided condition (R115, R117): `pc` moves exactly when it holds. -/
theorem skipIf_decide (c : Prop) [Decidable c] (s : State) :
    skipIf (decide c) s = { s with pc := if c then s.pc + 2 else s.pc } := by
  rw [skipIf_eq]
  simp only [decide_eq_true_eq]
  rfl

/-- A skip on the negated condition (R116, R118): `pc` moves exactly when it fails. -/
theorem skipIf_decide_not (c : Prop) [Decidable c] (s : State) :
    skipIf (decide (¬ c)) s = { s with pc := if c then s.pc else s.pc + 2 } := by
  rw [skipIf_decide, ite_not]

/-- Settles O32: each instruction is a skip on its own comparison, or on the comparison's negation,
and a skip writes nothing but `pc`. -/
theorem skipsAddTwo : Obligations.SkipsAddTwo := by
  intro x y nn s
  refine ⟨?seImm, ?sneImm, ?seReg, ?sneReg⟩
  case seImm => exact congrArg Host.Outcome.next (skipIf_decide (s.reg x = nn) s)
  case sneImm => exact congrArg Host.Outcome.next (skipIf_decide_not (s.reg x = nn) s)
  case seReg => exact congrArg Host.Outcome.next (skipIf_decide (s.reg x = s.reg y) s)
  case sneReg => exact congrArg Host.Outcome.next (skipIf_decide_not (s.reg x = s.reg y) s)

end Sys2Proof.Machine
end

section
/-! The register loads (spec/41_alu.md R132, R134). -/

namespace Sys2Proof.Machine

/-- R132: `6XNN` answers with its constant written to `V[X]`. -/
theorem exec_ldImm (x : RegNum) (nn : Byte) (s : State) :
    exec (.ldImm x nn) s = .next (s.setReg x nn) := rfl

/-- R134: `8XY0` answers with `V[Y]` written to `V[X]`. -/
theorem exec_ldReg (x y : RegNum) (s : State) :
    exec (.ldReg x y) s = .next (s.setReg x (s.reg y)) := rfl

/-- A write of one register touches the register file alone. -/
theorem State.setReg_eq_with_v (s : State) (x : RegNum) (b : Byte) :
    s.setReg x b = { s with v := (s.setReg x b).v } := rfl

/-- Settles O33: each load is one `setReg`, of the constant or of the source register, and
`State.reg_setReg` reads every register after it. -/
theorem loadsSetOneRegister : Obligations.LoadsSetOneRegister := by
  intro x y nn s
  constructor
  · exact ⟨s.setReg x nn, exec_ldImm x nn s, s.setReg_eq_with_v x nn,
      fun r => s.reg_setReg x r nn⟩
  · exact ⟨s.setReg x (s.reg y), exec_ldReg x y s, s.setReg_eq_with_v x (s.reg y),
      fun r => s.reg_setReg x r (s.reg y)⟩

end Sys2Proof.Machine
end

section
/-! The index load (spec/42_index_memory.md R161). -/

namespace Sys2Proof.Machine

/-- R161: `ANNN` answers with its zero-extended operand written to `I`. -/
theorem exec_ldI (nnn : BitVec 12) (s : State) :
    exec (.ldI nnn) s = .next (s.setIndex (zextAddr nnn)) := rfl

/-- A write of the index touches `I` alone. -/
theorem State.setIndex_eq_with_i (s : State) (a : Word) :
    s.setIndex a = { s with i := (s.setIndex a).i } := rfl

/-- Widening a 12-bit value to a word keeps its value. -/
theorem zextAddr_toNat (nnn : BitVec 12) : (zextAddr nnn).toNat = nnn.toNat :=
  BitVec.toNat_setWidth_of_le (by decide)

/-- Settles O38: the load is one `setIndex`, and `I` then holds the operand, zero-extended. -/
theorem indexLoadImmediate : Obligations.IndexLoadImmediate := by
  intro nnn s
  exact ⟨s.setIndex (zextAddr nnn), exec_ldI nnn s, s.setIndex_eq_with_i (zextAddr nnn),
    zextAddr_toNat nnn⟩

end Sys2Proof.Machine
end

section
/-! Clearing the display (spec/43_display.md R185). -/

namespace Sys2Proof.Machine

/-- R185: `00E0` answers with the cleared framebuffer in place of the old one. -/
theorem exec_cls (s : State) : exec .cls s = .next (s.setFrame FrameBuffer.clear) := rfl

/-- A write of the framebuffer touches the framebuffer alone. -/
theorem State.setFrame_eq_with_fb (s : State) (f : FrameBuffer) :
    s.setFrame f = { s with fb := (s.setFrame f).fb } := rfl

/-- Settles O46: the clear is one `setFrame`, and every pixel of the cleared framebuffer it leaves
is off (`FrameBuffer.bit_clear`). -/
theorem clearZeroesAllPixels : Obligations.ClearZeroesAllPixels := by
  intro s
  refine ⟨s.setFrame FrameBuffer.clear, exec_cls s, s.setFrame_eq_with_fb FrameBuffer.clear, ?_⟩
  intro p _
  rw [State.setFrame_fb]
  exact FrameBuffer.bit_clear p

end Sys2Proof.Machine
end

section
/-! Timer access (spec/44_keys_timers.md R206 to R208). -/

namespace Sys2Proof.Machine

/-- R206: `FX07` answers with `DT` written to `V[X]`. -/
theorem exec_ldVxDT (x : RegNum) (s : State) :
    exec (.ldVxDT x) s = .next (s.setReg x s.dt) := rfl

/-- R207: `FX15` answers with `V[X]` in place of whatever `DT` held. -/
theorem exec_ldDTVx (x : RegNum) (s : State) :
    exec (.ldDTVx x) s = .next (s.setDelay (s.reg x)) := rfl

/-- R208: `FX18` answers with `V[X]` in place of whatever `ST` held. -/
theorem exec_ldSTVx (x : RegNum) (s : State) :
    exec (.ldSTVx x) s = .next (s.setSound (s.reg x)) := rfl

/-- Settles O57: the read is one `setReg` of `DT`, which `State.reg_setReg` reads back; each write
is one `setDelay` or `setSound`, a record update of that timer alone. -/
theorem timerAccess : Obligations.TimerAccess := by
  intro x s
  refine ⟨?readDelay, ?writeDelay, ?writeSound⟩
  case readDelay =>
    exact ⟨s.setReg x s.dt, exec_ldVxDT x s, s.setReg_eq_with_v x s.dt,
      fun r => s.reg_setReg x r s.dt⟩
  case writeDelay => exact exec_ldDTVx x s
  case writeSound => exact exec_ldSTVx x s

end Sys2Proof.Machine
end

section
/-! A tick of the timers (spec/44_keys_timers.md R245). -/

namespace Sys2Proof.Machine

/-- R245: the decrement is the truncated subtraction of the natural numbers, floor 0. -/
theorem countDown_toNat (b : Byte) : (countDown b).toNat = b.toNat - 1 := by
  unfold countDown
  split
  case isTrue hzero => rw [hzero]; rfl
  case isFalse hnonzero => bv_omega

/-- R245: each timer counts down from its own value, whatever the other holds. -/
@[simp] theorem tick_dt (s : State) : (tick s).dt = countDown s.dt := rfl

@[simp] theorem tick_st (s : State) : (tick s).st = countDown s.st := rfl

/-- A tick touches the two timers alone. -/
theorem tick_eq_with_timers (s : State) :
    tick s = { s with dt := (tick s).dt, st := (tick s).st } := rfl

/-- A `Tick` is enabled in every state (R9), so the step that comes to one is that tick. -/
theorem step_tick {s s0 : State} (h : EventComesNext .tick s s0) : step s = .next (tick s0) :=
  step_enabled h rfl

/-- The state a step starts from holds `DT` still, whichever event was taken off. -/
theorem EventComesNext.dt_eq {e : Event} {s s0 : State} (h : EventComesNext e s s0) :
    s0.dt = s.dt := by rw [h.same]

/-- The same for `ST`. -/
theorem EventComesNext.st_eq {e : Event} {s s0 : State} (h : EventComesNext e s s0) :
    s0.st = s.st := by rw [h.same]

/-- Settles O58: the step is `tick`, which leaves in each timer its own truncated predecessor
(`countDown_toNat`): one less above 0, and 0 at 0. -/
theorem tickCountsDown : Obligations.TickCountsDown := by
  intro s s0 h
  have hdt : (tick s0).dt.toNat = s.dt.toNat - 1 := by rw [tick_dt, countDown_toNat, h.dt_eq]
  have hst : (tick s0).st.toNat = s.st.toNat - 1 := by rw [tick_st, countDown_toNat, h.st_eq]
  refine ⟨tick s0, step_tick h, tick_eq_with_timers s0,
    fun _ => hdt, fun hzero => ?delayAtZero, fun _ => hst, fun hzero => ?soundAtZero⟩
  case delayAtZero => rw [hdt, hzero]
  case soundAtZero => rw [hst, hzero]

end Sys2Proof.Machine
end

section
/-! The decoder and the encoder (spec/30_encoding.md R61, R92 to R100). -/

namespace Sys2Proof

/-! ### Decoding an encoded instruction -/

/-- `DXYN` has an encoding exactly when its row count is one hexadecimal digit (R94). -/
theorem wellFormed_drw {x y : RegNum} {n : Nat} : (Instr.drw x y n).WellFormed ↔ n ≤ 15 :=
  decide_eq_true_iff

/-- A word, split into the two bytes it has in memory and put before other bytes, decodes as the
word (R61, R92). -/
theorem decode_bytesOfWord {w : Word} {i : Instr} (h : decodeWord w = .instr i) (rest : List Byte) :
    decode (bytesOfWord w ++ rest) = .instr i rest := by
  simp [bytesOfWord, decode, wordOfBytes_extract, h]

/-- The decoder reads every operand of a well-formed instruction back from its format (R93, R98). -/
theorem decodeWord_encode {i : Instr} (h : i.WellFormed) : decodeWord (encode i) = .instr i := by
  cases i
  case cls | ret => all_goals rfl
  case drw x y n =>
    have hn : n < 16 := Nat.lt_succ_of_le (wellFormed_drw.1 h)
    simp [decodeWord, encode, Nat.mod_eq_of_lt hn]
  case ldReg | orReg | andReg | xorReg | addReg | subReg | shr | subnReg | shl =>
    all_goals simp [decodeWord, encode, decodeAlu]
  case skp | sknp => all_goals simp [decodeWord, encode, decodeKey]
  case ldVxDT | ldVxK | ldDTVx | ldSTVx | addI | ldF | ldB | storeRegs | loadRegs =>
    all_goals simp [decodeWord, encode, decodeMisc]
  all_goals simp [decodeWord, encode]

/-- Settles O1: the two bytes of an encoded instruction make its word again, and the decoder inverts
the encoder on that word. -/
theorem decodeOfEncodedInstruction : Obligations.DecodeOfEncodedInstruction :=
  fun _ rest h => decode_bytesOfWord (decodeWord_encode h) rest

/-! ### Encoding a decoded word -/

/-- A word with a known first digit is its `NNN` format, filled with its own fields. -/
theorem fmtNNN_of_op {w : Word} {op : BitVec 4} (hop : fieldOP w = op) :
    fmtNNN op (fieldNNN w) = w := hop ▸ fmtNNN_fields w

/-- The same for the format `XNN`, with the low byte free or known. -/
theorem fmtXNN_of_op {w : Word} {op : BitVec 4} {nn : Byte} (hop : fieldOP w = op)
    (hnn : fieldNN w = nn) : fmtXNN op (fieldX w) nn = w := hop ▸ hnn ▸ fmtXNN_fields w

/-- The same for the format `XYN`, with the last digit free or known. -/
theorem fmtXYN_of_op {w : Word} {op n : BitVec 4} (hop : fieldOP w = op) (hn : fieldN w = n) :
    fmtXYN op (fieldX w) (fieldY w) n = w := hop ▸ hn ▸ fmtXYN_fields w

/-- A hexadecimal digit is one of sixteen. -/
theorem digit_cases : ∀ d : BitVec 4, d = 0x0#4 ∨ d = 0x1#4 ∨ d = 0x2#4 ∨ d = 0x3#4 ∨ d = 0x4#4 ∨
    d = 0x5#4 ∨ d = 0x6#4 ∨ d = 0x7#4 ∨ d = 0x8#4 ∨ d = 0x9#4 ∨ d = 0xA#4 ∨ d = 0xB#4 ∨
    d = 0xC#4 ∨ d = 0xD#4 ∨ d = 0xE#4 ∨ d = 0xF#4 := by decide

theorem encode_of_decodeSys {w : Word} {i : Instr} (h : decodeSys w = .instr i) :
    i.WellFormed ∧ encode i = w := by
  unfold decodeSys at h
  split_ifs at h with hcls hret <;> cases h
  · exact ⟨rfl, hcls.symm⟩
  · exact ⟨rfl, hret.symm⟩

theorem encode_of_decodeAlu {w : Word} {i : Instr} (hop : fieldOP w = 0x8#4)
    (h : decodeAlu w = .instr i) : i.WellFormed ∧ encode i = w := by
  unfold decodeAlu at h
  split at h <;> cases h
  all_goals exact ⟨rfl, fmtXYN_of_op hop (BitVec.eq_of_toNat_eq ‹_›)⟩

theorem encode_of_decodeKey {w : Word} {i : Instr} (hop : fieldOP w = 0xE#4)
    (h : decodeKey w = .instr i) : i.WellFormed ∧ encode i = w := by
  unfold decodeKey at h
  split_ifs at h with hskp hsknp <;> cases h
  · exact ⟨rfl, fmtXNN_of_op hop hskp⟩
  · exact ⟨rfl, fmtXNN_of_op hop hsknp⟩

theorem encode_of_decodeMisc {w : Word} {i : Instr} (hop : fieldOP w = 0xF#4)
    (h : decodeMisc w = .instr i) : i.WellFormed ∧ encode i = w := by
  unfold decodeMisc at h
  split_ifs at h <;> cases h
  all_goals exact ⟨rfl, fmtXNN_of_op hop ‹_›⟩

/-- The encoder gives back every bit of a legal word, first digit by first digit (R96, R98). -/
theorem encode_of_decodeWord {w : Word} {i : Instr} (h : decodeWord w = .instr i) :
    i.WellFormed ∧ encode i = w := by
  unfold decodeWord at h
  rcases digit_cases (fieldOP w) with hop | hop | hop | hop | hop | hop | hop | hop | hop | hop |
    hop | hop | hop | hop | hop | hop <;>
    simp only [hop, BitVec.toNat_ofNat, Nat.reducePow, Nat.reduceMod] at h
  · exact encode_of_decodeSys h
  · cases h; exact ⟨rfl, fmtNNN_of_op hop⟩
  · cases h; exact ⟨rfl, fmtNNN_of_op hop⟩
  · cases h; exact ⟨rfl, fmtXNN_of_op hop rfl⟩
  · cases h; exact ⟨rfl, fmtXNN_of_op hop rfl⟩
  · split_ifs at h with hn
    cases h; exact ⟨rfl, fmtXYN_of_op hop hn⟩
  · cases h; exact ⟨rfl, fmtXNN_of_op hop rfl⟩
  · cases h; exact ⟨rfl, fmtXNN_of_op hop rfl⟩
  · exact encode_of_decodeAlu hop h
  · split_ifs at h with hn
    cases h; exact ⟨rfl, fmtXYN_of_op hop hn⟩
  · cases h; exact ⟨rfl, fmtNNN_of_op hop⟩
  · cases h; exact ⟨rfl, fmtNNN_of_op hop⟩
  · cases h; exact ⟨rfl, fmtXNN_of_op hop rfl⟩
  · cases h
    have hn : (fieldN w).toNat ≤ 15 := Nat.le_of_lt_succ (fieldN w).isLt
    exact ⟨wellFormed_drw.2 hn, fmtXYN_of_op hop (BitVec.ofNat_toNat 4 (fieldN w)).symm⟩
  · exact encode_of_decodeKey hop h
  · exact encode_of_decodeMisc hop h

/-- Settles O2: the encoder inverts the decoder on every legal word. -/
theorem encodeOfDecodedWord : Obligations.EncodeOfDecodedWord := fun _ _ => encode_of_decodeWord

/-! ### The rows of the opcode table -/

/-- The word of every instruction lies in that instruction's own row (R98). -/
theorem fitsRow (i : Instr) : Laws.FitsRow.Statement i :=
  match i with
  | .cls => Laws.FitsRow.cls
  | .ret => Laws.FitsRow.ret
  | .jp a => Laws.FitsRow.jp a
  | .call a => Laws.FitsRow.call a
  | .seImm a b => Laws.FitsRow.seImm a b
  | .sneImm a b => Laws.FitsRow.sneImm a b
  | .seReg a b => Laws.FitsRow.seReg a b
  | .ldImm a b => Laws.FitsRow.ldImm a b
  | .addImm a b => Laws.FitsRow.addImm a b
  | .ldReg a b => Laws.FitsRow.ldReg a b
  | .orReg a b => Laws.FitsRow.orReg a b
  | .andReg a b => Laws.FitsRow.andReg a b
  | .xorReg a b => Laws.FitsRow.xorReg a b
  | .addReg a b => Laws.FitsRow.addReg a b
  | .subReg a b => Laws.FitsRow.subReg a b
  | .shr a b => Laws.FitsRow.shr a b
  | .subnReg a b => Laws.FitsRow.subnReg a b
  | .shl a b => Laws.FitsRow.shl a b
  | .sneReg a b => Laws.FitsRow.sneReg a b
  | .ldI a => Laws.FitsRow.ldI a
  | .jpV0 a => Laws.FitsRow.jpV0 a
  | .rnd a b => Laws.FitsRow.rnd a b
  | .drw a b c => Laws.FitsRow.drw a b c
  | .skp a => Laws.FitsRow.skp a
  | .sknp a => Laws.FitsRow.sknp a
  | .ldVxDT a => Laws.FitsRow.ldVxDT a
  | .ldVxK a => Laws.FitsRow.ldVxK a
  | .ldDTVx a => Laws.FitsRow.ldDTVx a
  | .ldSTVx a => Laws.FitsRow.ldSTVx a
  | .addI a => Laws.FitsRow.addI a
  | .ldF a => Laws.FitsRow.ldF a
  | .ldB a => Laws.FitsRow.ldB a
  | .storeRegs a => Laws.FitsRow.storeRegs a
  | .loadRegs a => Laws.FitsRow.loadRegs a

/-- The instruction of the row of `i` whose operands are the fields of `w`. -/
def rowInstr (i : Instr) (w : Word) : Instr :=
  match i with
  | .cls => .cls
  | .ret => .ret
  | .jp _ => .jp (fieldNNN w)
  | .call _ => .call (fieldNNN w)
  | .seImm _ _ => .seImm (fieldX w) (fieldNN w)
  | .sneImm _ _ => .sneImm (fieldX w) (fieldNN w)
  | .seReg _ _ => .seReg (fieldX w) (fieldY w)
  | .ldImm _ _ => .ldImm (fieldX w) (fieldNN w)
  | .addImm _ _ => .addImm (fieldX w) (fieldNN w)
  | .ldReg _ _ => .ldReg (fieldX w) (fieldY w)
  | .orReg _ _ => .orReg (fieldX w) (fieldY w)
  | .andReg _ _ => .andReg (fieldX w) (fieldY w)
  | .xorReg _ _ => .xorReg (fieldX w) (fieldY w)
  | .addReg _ _ => .addReg (fieldX w) (fieldY w)
  | .subReg _ _ => .subReg (fieldX w) (fieldY w)
  | .shr _ _ => .shr (fieldX w) (fieldY w)
  | .subnReg _ _ => .subnReg (fieldX w) (fieldY w)
  | .shl _ _ => .shl (fieldX w) (fieldY w)
  | .sneReg _ _ => .sneReg (fieldX w) (fieldY w)
  | .ldI _ => .ldI (fieldNNN w)
  | .jpV0 _ => .jpV0 (fieldNNN w)
  | .rnd _ _ => .rnd (fieldX w) (fieldNN w)
  | .drw _ _ _ => .drw (fieldX w) (fieldY w) (fieldN w).toNat
  | .skp _ => .skp (fieldX w)
  | .sknp _ => .sknp (fieldX w)
  | .ldVxDT _ => .ldVxDT (fieldX w)
  | .ldVxK _ => .ldVxK (fieldX w)
  | .ldDTVx _ => .ldDTVx (fieldX w)
  | .ldSTVx _ => .ldSTVx (fieldX w)
  | .addI _ => .addI (fieldX w)
  | .ldF _ => .ldF (fieldX w)
  | .ldB _ => .ldB (fieldX w)
  | .storeRegs _ => .storeRegs (fieldX w)
  | .loadRegs _ => .loadRegs (fieldX w)

theorem rowMask_rowInstr (i : Instr) (w : Word) : rowMask (rowInstr i w) = rowMask i := by
  cases i <;> rfl

theorem rowMatch_rowInstr (i : Instr) (w : Word) : rowMatch (rowInstr i w) = rowMatch i := by
  cases i <;> rfl

theorem wellFormed_rowInstr (i : Instr) (w : Word) : (rowInstr i w).WellFormed := by
  cases i
  case drw => exact wellFormed_drw.2 (Nat.le_of_lt_succ (fieldN w).isLt)
  all_goals rfl

/-- A word that matches under the mask `F000` has the matched first digit (R98). -/
theorem fieldOP_of_mask {w : Word} {op : BitVec 4} (h : w &&& 0xF000#16 = fmtNNN op 0#12) :
    fieldOP w = op := by
  have hw := Laws.fitsRow_fmtNNN (fieldOP w) (fieldNNN w)
  rw [fmtNNN_fields, h] at hw
  simpa using (congrArg fieldOP hw).symm

/-- A word that matches under the mask `F00F` is its format with the matched digits (R98). -/
theorem fmtXYN_of_mask {w : Word} {op n : BitVec 4} (h : w &&& 0xF00F#16 = fmtXYN op 0 0 n) :
    fmtXYN op (fieldX w) (fieldY w) n = w := by
  have hw := Laws.fitsRow_fmtXYN_fixed (fieldOP w) (fieldX w) (fieldY w) (fieldN w)
  rw [fmtXYN_fields, h] at hw
  exact fmtXYN_of_op (by simpa using (congrArg fieldOP hw).symm)
    (by simpa using (congrArg fieldN hw).symm)

/-- A word that matches under the mask `F0FF` is its format with the matched digit and low byte
(R98). -/
theorem fmtXNN_of_mask {w : Word} {op : BitVec 4} {nn : Byte}
    (h : w &&& 0xF0FF#16 = fmtXNN op 0 nn) : fmtXNN op (fieldX w) nn = w := by
  have hw := Laws.fitsRow_fmtXNN_fixed (fieldOP w) (fieldX w) (fieldNN w)
  rw [fmtXNN_fields, h] at hw
  exact fmtXNN_of_op (by simpa using (congrArg fieldOP hw).symm)
    (by simpa using (congrArg fieldNN hw).symm)

/-- A word that matches a row is the encoding of that row's instruction with the word's fields. -/
theorem encode_rowInstr {w : Word} {i : Instr} (h : w &&& rowMask i = rowMatch i) :
    encode (rowInstr i w) = w := by
  cases i
  case cls | ret => all_goals exact h.symm.trans (BitVec.and_allOnes (x := w))
  case jp | call | ldI | jpV0 => all_goals exact fmtNNN_of_op (fieldOP_of_mask h)
  case seImm | sneImm | ldImm | addImm | rnd =>
    all_goals exact fmtXNN_of_op (fieldOP_of_mask h) rfl
  case drw =>
    exact fmtXYN_of_op (fieldOP_of_mask h) (BitVec.ofNat_toNat 4 (fieldN w)).symm
  case seReg | ldReg | orReg | andReg | xorReg | addReg | subReg | shr | subnReg | shl | sneReg =>
    all_goals exact fmtXYN_of_mask h
  case skp | sknp | ldVxDT | ldVxK | ldDTVx | ldSTVx | addI | ldF | ldB | storeRegs | loadRegs =>
    all_goals exact fmtXNN_of_mask h

/-- Settles O3. A word that matches a row encodes an instruction of the row, which it decodes to by
`decodeWord_encode`; and a word that decodes is the encoding of its instruction, which fits the
row. -/
theorem decodeFollowsTheOpcodeTable : Obligations.DecodeFollowsTheOpcodeTable := by
  intro w i
  constructor
  · intro h
    refine ⟨rowInstr i w, ?_, rowMask_rowInstr i w, rowMatch_rowInstr i w⟩
    calc decodeWord w = decodeWord (encode (rowInstr i w)) := by rw [encode_rowInstr h]
      _ = .instr (rowInstr i w) := decodeWord_encode (wellFormed_rowInstr i w)
  · rintro ⟨j, hj, hmask, hmatch⟩
    obtain ⟨-, henc⟩ := encode_of_decodeWord hj
    rw [← hmask, ← hmatch, ← henc]
    exact fitsRow j

/-! ### Illegal words -/

theorem decodeSys_illegal {w : Word} {c : Illegal} :
    decodeSys w = .illegal c ↔ c = .unimplementedSys ∧ w ≠ 0x00E0#16 ∧ w ≠ 0x00EE#16 := by
  unfold decodeSys
  split_ifs with hcls hret <;> simp [*, eq_comm]

/-- The last digits `8XYN` has no row for: 8 to D, and F (R100). -/
theorem decodeAlu_illegal {w : Word} {c : Illegal} :
    decodeAlu w = .illegal c ↔ c = .unknownOpcode ∧
      fieldN w ∈ [0x8#4, 0x9#4, 0xA#4, 0xB#4, 0xC#4, 0xD#4, 0xF#4] := by
  unfold decodeAlu
  rcases digit_cases (fieldN w) with hn | hn | hn | hn | hn | hn | hn | hn | hn | hn | hn | hn |
    hn | hn | hn | hn <;> simp [hn, eq_comm]

theorem decodeKey_illegal {w : Word} {c : Illegal} :
    decodeKey w = .illegal c ↔ c = .unknownOpcode ∧ fieldNN w ∉ [0x9E#8, 0xA1#8] := by
  unfold decodeKey
  split_ifs <;> simp [*, eq_comm (b := c)]

theorem decodeMisc_illegal {w : Word} {c : Illegal} :
    decodeMisc w = .illegal c ↔ c = .unknownOpcode ∧
      fieldNN w ∉ [0x07#8, 0x0A#8, 0x15#8, 0x18#8, 0x1E#8, 0x29#8, 0x33#8, 0x55#8, 0x65#8] := by
  unfold decodeMisc
  split_ifs <;> simp [*, eq_comm (b := c)]

/-- A row whose last digit must be 0: any other is an illegal word (D12). -/
theorem strictDecode_illegal {n : BitVec 4} {i : Instr} {c : Illegal} :
    (if n = 0x0#4 then Decoded.instr i else .illegal .unknownOpcode) = .illegal c ↔
      c = .unknownOpcode ∧ n ≠ 0x0#4 := by
  split_ifs <;> simp [*, eq_comm (b := c)]

/-- Settles O4: by its first digit a word is in a family with its own list of illegal words, or in
one where every word is legal. -/
theorem illegalWordsAndTheirCauses : Obligations.IllegalWordsAndTheirCauses := by
  intro w
  unfold decodeWord
  rcases digit_cases (fieldOP w) with hop | hop | hop | hop | hop | hop | hop | hop | hop | hop |
    hop | hop | hop | hop | hop | hop <;>
    simp [hop, decodeSys_illegal, decodeAlu_illegal, decodeKey_illegal, decodeMisc_illegal,
      strictDecode_illegal]

/-- Settles O5: each word is the encoding of the instruction named, written out bit by bit. -/
theorem writtenOutWordsDecode : Obligations.WrittenOutWordsDecode :=
  ⟨decodeWord_encode (i := .cls) rfl, decodeWord_encode (i := .call 0xABC) rfl,
   decodeWord_encode (i := .seImm 0xF 0x42) rfl, decodeWord_encode (i := .addReg 0xA 0xB) rfl,
   decodeWord_encode (i := .drw 0x7 0xC 9) rfl, decodeWord_encode (i := .sknp 0x4) rfl,
   decodeWord_encode (i := .loadRegs 0xE) rfl⟩

end Sys2Proof
end

section
/-! What one instruction writes, raises and leaves alone (spec/10_state.md R20 to R25,
spec/20_memory.md R67, spec/60_exceptions.md R231, R233). -/

namespace Sys2Proof.Machine

/-- Settles O21: `exec_cases` lists the two ways an instruction can end. -/
theorem causesRaisedOnlyByTheirInstructions : Obligations.CausesRaisedOnlyByTheirInstructions := by
  intro i s t h
  rcases exec_cases h with ⟨c, hc, rfl⟩ | ⟨hhalt, -⟩
  · exact .inr ⟨c, hc, rfl⟩
  · exact .inl hhalt

/-! ### Special registers -/

/-- Settles O20. A fatal condition writes `HALT` alone; an effect is a chain of updates of `State`,
whose field lemmas tell which registers it touches. -/
theorem specialRegistersKept : Obligations.SpecialRegistersKept := by
  intro i s t h
  rcases exec_cases h with ⟨c, hc, rfl⟩ | ⟨-, heff⟩
  · exact ⟨fun _ _ _ => rfl, fun _ _ => rfl, fun _ => rfl, fun _ => rfl, fun _ _ => rfl,
      fun _ => rfl, fun hno => absurd hc (hno c), fun _ => rfl, fun _ => rfl, rfl, rfl, rfl,
      rfl, rfl⟩
  unfold Effect at heff
  cases i <;> simp only at heff
  case ret =>
    obtain ⟨a, rest, -, rfl⟩ := heff
    simp [writesPc]
  case seImm | sneImm | seReg | sneReg | skp | sknp =>
    all_goals
      obtain ⟨c, rfl⟩ := heff
      simp [writesPc, skipIf_eq]
  case call | ldVxK | ldB | storeRegs =>
    all_goals
      obtain ⟨-, rfl⟩ := heff
      simp [writesPc]
  case addReg | subReg | subnReg | shl =>
    all_goals
      obtain ⟨b, c, rfl⟩ := heff
      simp [State.resultThenFlag]
  case shr =>
    obtain ⟨c, rfl⟩ := heff
    simp [State.flagThenResult]
  case drw =>
    subst heff
    simp [drawSprite]
  case cls | jp | jpV0 | rnd | ldDTVx | ldSTVx | loadRegs =>
    all_goals
      subst heff
      simp [writesPc]
  all_goals
    obtain ⟨b, rfl⟩ := heff
    simp

section
variable {i : Instr} {s t : State} (h : exec i s = .next t)
include h

theorem exec_keeps_stack (hcall : ∀ nnn, i ≠ .call nnn) (hret : i ≠ .ret) : t.stack = s.stack := by
  obtain ⟨-, hstack, -⟩ := specialRegistersKept i s t h
  exact hstack hcall hret

theorem exec_keeps_dt (hdt : ∀ x, i ≠ .ldDTVx x) : t.dt = s.dt := by
  obtain ⟨-, -, hkeep, -⟩ := specialRegistersKept i s t h
  exact hkeep hdt

theorem exec_keeps_st (hst : ∀ x, i ≠ .ldSTVx x) : t.st = s.st := by
  obtain ⟨-, -, -, hkeep, -⟩ := specialRegistersKept i s t h
  exact hkeep hst

theorem exec_keeps_wait (hpark : ∀ x, i ≠ .ldVxK x) : t.wait = s.wait := by
  obtain ⟨-, -, -, -, -, hwait, -⟩ := specialRegistersKept i s t h
  exact hwait hpark

theorem exec_keeps_pc (hpc : ¬ writesPc i) : t.pc = s.pc := by
  obtain ⟨-, -, -, -, -, -, -, -, hkeep, -⟩ := specialRegistersKept i s t h
  exact hkeep hpc

theorem exec_keeps_stackLimit : t.stackLimit = s.stackLimit := by
  obtain ⟨-, -, -, -, -, -, -, -, -, -, -, hlimit, -⟩ := specialRegistersKept i s t h
  exact hlimit

end

/-! ### General registers -/

theorem State.reg_loadRegsFrom (s : State) (bs : List Byte) (r : RegNum) :
    (s.loadRegsFrom bs).reg r = if r.val < bs.length then bs[r.val]?.getD 0#8 else s.reg r := by
  have hr := getElem_setRegsFrom bs s.v 0 r
  simp only [Nat.zero_le, true_and, Nat.zero_add, Nat.sub_zero] at hr
  exact hr

@[simp] theorem State.reg_skipIf (s : State) (c : Bool) (r : RegNum) :
    (skipIf c s).reg r = s.reg r := by rw [skipIf_eq]; rfl

/-- Settles O18: each effect writes registers by `setReg`, by one of its two composites with the
flag, or by a load of `V[0]` to `V[X]`; the other updates write none. -/
theorem registersKeptOutsideDestinations : Obligations.RegistersKeptOutsideDestinations := by
  intro i s t r h hr
  rcases exec_cases h with ⟨c, -, rfl⟩ | ⟨-, heff⟩
  · rfl
  unfold Effect at heff
  unfold mayWriteReg at hr
  cases i <;> simp only [not_or] at heff hr
  case ret =>
    obtain ⟨a, rest, -, rfl⟩ := heff
    rfl
  case seImm | sneImm | seReg | sneReg | skp | sknp =>
    all_goals
      obtain ⟨c, rfl⟩ := heff
      exact s.reg_skipIf c r
  case call | ldVxK | ldB | storeRegs =>
    all_goals
      obtain ⟨-, rfl⟩ := heff
      rfl
  case addReg | subReg | subnReg | shl =>
    all_goals
      obtain ⟨b, c, rfl⟩ := heff
      simp [State.reg_resultThenFlag, hr]
  case shr =>
    obtain ⟨c, rfl⟩ := heff
    simp [State.reg_flagThenResult, hr]
  case drw =>
    subst heff
    exact State.reg_setReg_ne _ _ _ _ hr
  case rnd =>
    subst heff
    exact State.reg_setReg_ne _ _ _ _ hr
  case loadRegs x =>
    subst heff
    have hlt : ¬ r.val < x.val + 1 := fun hlt => hr (Nat.le_of_lt_succ hlt)
    simp [State.reg_loadRegsFrom, Memory.length_readBytes, hlt]
  case ldImm | addImm | ldReg | orReg | andReg | xorReg | ldVxDT =>
    all_goals
      obtain ⟨b, rfl⟩ := heff
      exact State.reg_setReg_ne _ _ _ _ hr
  case ldI | addI | ldF =>
    all_goals
      obtain ⟨a, rfl⟩ := heff
      rfl
  all_goals
    subst heff
    rfl

/-- R24: the value a flag-writing instruction leaves is 0 or 1. -/
theorem flagByte_eq_zero_or_one (c : Bool) : flagByte c = 0 ∨ flagByte c = 1 := by
  cases c
  · exact .inl rfl
  · exact .inr rfl

/-- Settles O22: every effect listed writes a `flagByte` to `V[15]` last, but `8XY6`, which with
`X = 0xF` shifts the flag it has just written. -/
theorem flagIsZeroOrOne : Obligations.FlagIsZeroOrOne := by
  intro x y n i s t hi h hs ht
  rcases exec_cases h with ⟨c, -, rfl⟩ | ⟨-, heff⟩
  · cases ht
  have ofResultThenFlag : (∃ b c, t = s.resultThenFlag x b (flagByte c)) →
      t.reg vf = 0 ∨ t.reg vf = 1 := by
    rintro ⟨b, c, rfl⟩
    rw [State.reg_resultThenFlag, if_pos rfl]
    exact flagByte_eq_zero_or_one c
  have ofFlagThenShift : (∃ c, t = s.flagThenResult x (flagByte c) (fun a => a >>> 1)) →
      t.reg vf = 0 ∨ t.reg vf = 1 := by
    rintro ⟨c, rfl⟩
    rw [State.reg_flagThenResult]
    by_cases hx : vf = x
    · subst hx
      rw [if_pos rfl, if_pos rfl]
      cases c <;> exact .inl rfl
    · rw [if_neg hx, if_pos rfl]
      exact flagByte_eq_zero_or_one c
  have ofDraw : t = drawSprite x y n s → t.reg vf = 0 ∨ t.reg vf = 1 := by
    rintro rfl
    rw [drawSprite_eq, State.reg_setReg_same]
    exact flagByte_eq_zero_or_one _
  simp only [List.mem_cons, List.not_mem_nil, or_false] at hi
  rcases hi with rfl | rfl | rfl | rfl | rfl | rfl
  · exact ofResultThenFlag heff
  · exact ofResultThenFlag heff
  · exact ofFlagThenShift heff
  · exact ofResultThenFlag heff
  · exact ofResultThenFlag heff
  · exact ofDraw heff

/-! ### Memory -/

/-- Only `FX33` and `FX55` store (R60). -/
theorem exec_keeps_mem {i : Instr} {s t : State} (h : exec i s = .next t) (hldB : ∀ x, i ≠ .ldB x)
    (hstore : ∀ x, i ≠ .storeRegs x) : t.mem = s.mem := by
  rcases exec_cases h with ⟨c, -, rfl⟩ | ⟨-, heff⟩
  · rfl
  unfold Effect at heff
  cases i <;> simp only at heff
  case ldB x => exact absurd rfl (hldB x)
  case storeRegs x => exact absurd rfl (hstore x)
  case ret =>
    obtain ⟨a, rest, -, rfl⟩ := heff
    rfl
  case seImm | sneImm | seReg | sneReg | skp | sknp =>
    all_goals
      obtain ⟨c, rfl⟩ := heff
      rw [skipIf_eq]
  case call | ldVxK =>
    all_goals
      obtain ⟨-, rfl⟩ := heff
      rfl
  case addReg | subReg | subnReg | shl =>
    all_goals
      obtain ⟨b, c, rfl⟩ := heff
      rfl
  case cls | jp | jpV0 | rnd | drw | ldDTVx | ldSTVx | loadRegs =>
    all_goals
      subst heff
      rfl
  all_goals
    obtain ⟨b, rfl⟩ := heff
    rfl

/-- An instruction leaves memory alone, or stores its `bytesStored i` bytes from `I` on, all of them
in range (R65, R67). -/
theorem exec_mem {i : Instr} {s t : State} (h : exec i s = .next t) :
    t.mem = s.mem ∨ ∃ bs : List Byte, bs.length = bytesStored i ∧
      indexAddr s + bs.length ≤ Config.memSize ∧ t.mem = s.mem.writeBytes (indexAddr s) bs := by
  by_cases hldB : ∃ x, i = .ldB x
  · obtain ⟨x, rfl⟩ := hldB
    rcases execLdB_next.1 h with ⟨hin, rfl⟩ | ⟨-, rfl⟩
    · exact .inr ⟨bcdDigits (s.reg x), rfl, hin, rfl⟩
    · exact .inl rfl
  by_cases hstore : ∃ x, i = .storeRegs x
  · obtain ⟨x, rfl⟩ := hstore
    rcases execStoreRegs_next.1 h with ⟨hin, rfl⟩ | ⟨-, rfl⟩
    · have hlen := s.length_regsUpTo x
      exact .inr ⟨s.regsUpTo x, hlen, hlen ▸ hin, rfl⟩
    · exact .inl rfl
  exact .inl (exec_keeps_mem h (fun x e => hldB ⟨x, e⟩) (fun x e => hstore ⟨x, e⟩))

/-- Settles O19: what is stored from `I` on is read back inside that range alone. -/
theorem memoryKeptOutsideStoredBytes : Obligations.MemoryKeptOutsideStoredBytes := by
  intro i s t a h ha
  rcases exec_mem h with hmem | ⟨bs, hlen, hin, hmem⟩
  · rw [hmem]
  · rw [hmem, Memory.read_writeBytes _ _ _ _ hin, hlen, if_neg ha]

/-! ### The sound timer -/

/-- Settles O24: the check an instruction makes, its cause and its effect are the same with any
`ST`, which only `FX18` writes, with the value of a register. -/
theorem soundTimerIsUnobserved : Obligations.SoundTimerIsUnobserved := by
  intro i s t b h
  cases i
  case ret =>
    rcases execRet_next.1 h with ⟨hempty, rfl⟩ | ⟨a, rest, hstack, rfl⟩
    · exact ⟨_, execRet_next.2 (.inl ⟨hempty, rfl⟩), rfl⟩
    · exact ⟨_, execRet_next.2 (.inr ⟨a, rest, hstack, rfl⟩), rfl⟩
  case call =>
    rcases execCall_next.1 h with ⟨hfull, rfl⟩ | ⟨hfree, rfl⟩
    · exact ⟨_, execCall_next.2 (.inl ⟨hfull, rfl⟩), rfl⟩
    · exact ⟨_, execCall_next.2 (.inr ⟨hfree, rfl⟩), rfl⟩
  case drw =>
    rcases execDrw_next.1 h with ⟨hout, rfl⟩ | ⟨hin, hspill, rfl⟩ | ⟨hin, hfits, rfl⟩
    · exact ⟨_, execDrw_next.2 (.inl ⟨hout, rfl⟩), rfl⟩
    · exact ⟨_, execDrw_next.2 (.inr (.inl ⟨hin, hspill, rfl⟩)), rfl⟩
    · exact ⟨_, execDrw_next.2 (.inr (.inr ⟨hin, hfits, rfl⟩)), rfl⟩
  case skp | sknp =>
    all_goals
      rcases testKey_next.1 h with ⟨hbad, rfl⟩ | ⟨hkey, rfl⟩
      · exact ⟨_, testKey_next.2 (.inl ⟨hbad, rfl⟩), rfl⟩
      · refine ⟨_, testKey_next.2 (.inr ⟨hkey, rfl⟩), ?_⟩
        simp only [skipIf_eq]
        rfl
  case ldVxK =>
    rcases execLdVxK_next.1 h with ⟨hclosed, rfl⟩ | ⟨hopen, rfl⟩
    · exact ⟨_, execLdVxK_next.2 (.inl ⟨hclosed, rfl⟩), rfl⟩
    · exact ⟨_, execLdVxK_next.2 (.inr ⟨hopen, rfl⟩), rfl⟩
  case ldB =>
    rcases execLdB_next.1 h with ⟨hin, rfl⟩ | ⟨hout, rfl⟩
    · exact ⟨_, execLdB_next.2 (.inl ⟨hin, rfl⟩), rfl⟩
    · exact ⟨_, execLdB_next.2 (.inr ⟨hout, rfl⟩), rfl⟩
  case storeRegs =>
    rcases execStoreRegs_next.1 h with ⟨hin, rfl⟩ | ⟨hout, rfl⟩
    · exact ⟨_, execStoreRegs_next.2 (.inl ⟨hin, rfl⟩), rfl⟩
    · exact ⟨_, execStoreRegs_next.2 (.inr ⟨hout, rfl⟩), rfl⟩
  case loadRegs =>
    rcases execLoadRegs_next.1 h with ⟨hin, rfl⟩ | ⟨hout, rfl⟩
    · exact ⟨_, execLoadRegs_next.2 (.inl ⟨hin, rfl⟩), rfl⟩
    · exact ⟨_, execLoadRegs_next.2 (.inr ⟨hout, rfl⟩), rfl⟩
  case seImm | sneImm | seReg | sneReg =>
    all_goals
      obtain rfl := next_inj.1 h.symm
      refine ⟨_, rfl, ?_⟩
      simp only [skipIf_eq]
      rfl
  all_goals
    cases h
    exact ⟨_, rfl, rfl⟩

end Sys2Proof.Machine
end

section
/-! The invariant of every reachable state (spec/10_state.md R23, R26, R32, R38). -/

namespace Sys2Proof.Machine

theorem zextAddr_le (nnn : BitVec 12) : (zextAddr nnn).toNat ≤ 0xFFF := by
  rw [zextAddr_toNat]
  omega

/-- `BNNN`'s sum of a byte and a 12-bit address is not reduced: it fits a word (R114). -/
theorem zextByte_add_zextAddr_toNat (b : Byte) (nnn : BitVec 12) :
    (zextByte b + zextAddr nnn).toNat = b.toNat + nnn.toNat := by
  have hb : (zextByte b).toNat = b.toNat := BitVec.toNat_setWidth_of_le (by decide)
  rw [BitVec.toNat_add, hb, zextAddr_toNat, Nat.mod_eq_of_lt (by omega)]

/-- A skip moves `pc` by at most 2. -/
theorem skipIf_pc_le (c : Bool) {s : State} (hpc : s.pc.toNat ≤ 4096) :
    (skipIf c s).pc.toNat ≤ 4098 := by
  rw [skipIf_eq]
  cases c
  · exact hpc.trans (by decide : 4096 ≤ 4098)
  · exact (Nat.mod_le _ _).trans (Nat.add_le_add_right hpc 2)

/-! ### The parts of the invariant, instruction by instruction -/

section
variable {i : Instr} {s t : State} (h : exec i s = .next t)
include h

theorem exec_mem_wf (hwf : s.mem.wf) : t.mem.wf := by
  rcases exec_mem h with hmem | ⟨bs, -, -, hmem⟩
  · rwa [hmem]
  · rw [hmem]
    exact Memory.wf_writeBytes bs s.mem _ hwf

/-- `pc` after an instruction is as it was, one skip further, a return address, a 12-bit address, or
the sum of one and a byte (R110 to R118). -/
theorem exec_pc_le (hpc : s.pc.toNat ≤ 4096)
    (hstack : ∀ a ∈ s.stack, 2 ≤ a.toNat ∧ a.toNat ≤ 4096) : t.pc.toNat ≤ 0x10FE := by
  by_cases hw : writesPc i
  case neg =>
    rw [exec_keeps_pc h hw]
    omega
  rcases exec_cases h with ⟨c, -, rfl⟩ | ⟨-, heff⟩
  · exact hpc.trans (by decide)
  cases i
  case ret =>
    obtain ⟨a, rest, hs, rfl⟩ := heff
    exact (hstack a (by simp [hs])).2.trans (by decide)
  case jp nnn =>
    obtain rfl := heff
    exact (zextAddr_le nnn).trans (by decide)
  case call nnn =>
    obtain ⟨-, rfl⟩ := heff
    exact (zextAddr_le nnn).trans (by decide)
  case jpV0 nnn =>
    obtain rfl := heff
    rw [State.setPc_pc, zextByte_add_zextAddr_toNat]
    omega
  case seImm | sneImm | seReg | sneReg | skp | sknp =>
    all_goals
      obtain ⟨c, rfl⟩ := heff
      exact (skipIf_pc_le c hpc).trans (by decide)
  all_goals exact hw.elim

/-- What an instruction does to the stack: nothing, the push of `pc` while it is not full, or a pop
(R32, R112, R113). -/
theorem exec_stack : t.stack = s.stack ∨ (stackFull s = false ∧ t.stack = s.pc :: s.stack) ∨
    ∃ a, s.stack = a :: t.stack := by
  by_cases hcall : ∃ nnn, i = .call nnn
  · obtain ⟨nnn, rfl⟩ := hcall
    rcases execCall_next.1 h with ⟨-, rfl⟩ | ⟨hfree, rfl⟩
    · exact .inl rfl
    · exact .inr (.inl ⟨hfree, rfl⟩)
  by_cases hret : i = .ret
  · subst hret
    rcases execRet_next.1 h with ⟨-, rfl⟩ | ⟨a, rest, hs, rfl⟩
    · exact .inl rfl
    · exact .inr (.inr ⟨a, hs⟩)
  exact .inl (exec_keeps_stack h (fun nnn e => hcall ⟨nnn, e⟩) hret)

theorem exec_return_addr (hpc : 2 ≤ s.pc.toNat ∧ s.pc.toNat ≤ 4096)
    (hstack : ∀ a ∈ s.stack, 2 ≤ a.toNat ∧ a.toNat ≤ 4096) :
    ∀ a ∈ t.stack, 2 ≤ a.toNat ∧ a.toNat ≤ 4096 := by
  rcases exec_stack h with hs | ⟨-, hs⟩ | ⟨b, hs⟩
  · rwa [hs]
  · rw [hs]
    exact List.forall_mem_cons.2 ⟨hpc, hstack⟩
  · rw [hs] at hstack
    exact (List.forall_mem_cons.1 hstack).2

theorem exec_depth_le (hdepth : ∀ l, s.stackLimit = some l → s.stack.length ≤ l) :
    ∀ l, t.stackLimit = some l → t.stack.length ≤ l := by
  intro l hl
  rw [exec_keeps_stackLimit h] at hl
  have hle := hdepth l hl
  rcases exec_stack h with hs | ⟨hfree, hs⟩ | ⟨b, hs⟩
  · rwa [hs]
  · have hne : s.stack.length ≠ l := by simpa [stackFull, hl] using hfree
    rw [hs, List.length_cons]
    omega
  · rw [hs, List.length_cons] at hle
    omega

/-- Only `FX0A` parks, without a fatal condition and with its source open (R204, R205). -/
theorem exec_parked_live (hrun : s.Running) :
    t.wait ≠ none → t.halt = none ∧ t.inputOpen = true := by
  obtain ⟨hhalt, hwait⟩ := hrun
  intro hparked
  by_cases hpark : ∃ x, i = .ldVxK x
  · obtain ⟨x, rfl⟩ := hpark
    rcases execLdVxK_next.1 h with ⟨-, rfl⟩ | ⟨hopen, rfl⟩
    · exact absurd hwait hparked
    · exact ⟨hhalt, hopen⟩
  · rw [exec_keeps_wait h (fun x e => hpark ⟨x, e⟩)] at hparked
    exact absurd hwait hparked

end

/-! ### The invariant, event by event -/

/-- The invariant does not mention the general registers, `I`, the timers, the mask, the pixels and
the events to come. -/
theorem State.Inv.of_same {s t : State} (hi : s.Inv) (hmem : t.mem = s.mem) (hpc : t.pc = s.pc)
    (hstack : t.stack = s.stack) (hlimit : t.stackLimit = s.stackLimit)
    (hlive : t.wait ≠ none → t.halt = none ∧ t.inputOpen = true) : t.Inv :=
  ⟨hmem ▸ hi.mem_wf, hpc ▸ hi.pc_le, hstack ▸ hi.return_addr,
    by rw [hlimit, hstack]; exact hi.depth_le, hlive⟩

theorem EventComesNext.inv {e : Event} {s s0 : State} (h : EventComesNext e s s0) (hi : s.Inv) :
    s0.Inv := by
  rw [h.same]
  exact hi.of_same rfl rfl rfl rfl hi.parked_live

/-- Up to the last fetch, `pc` does not wrap when it advances (R90). -/
theorem State.advance_pc_toNat {s : State} (h : s.pc.toNat < 4095) :
    s.advance.pc.toNat = s.pc.toNat + 2 := by
  rw [State.advance_pc, BitVec.toNat_add, Nat.mod_eq_of_lt]
  · rfl
  · exact Nat.lt_trans (Nat.add_lt_add_right h 2) (by decide)

/-- The step cycle keeps the invariant (R90, R91). -/
theorem runStep_inv {s t : State} (hi : s.Inv) (hrun : s.Running) (h : runStep s = .next t) :
    t.Inv := by
  have hnotParked : s.wait ≠ none → False := fun hne => hne hrun.2
  rcases runStep_next.1 h with ⟨-, rfl⟩ | ⟨hpc, c, -, rfl⟩ | ⟨hpc, i, -, hx⟩
  · exact hi.of_same rfl rfl rfl rfl fun hne => (hnotParked hne).elim
  · have hadv := State.advance_pc_toNat hpc
    refine ⟨hi.mem_wf, ?_, hi.return_addr, hi.depth_le, fun hne => (hnotParked hne).elim⟩
    rw [State.setHalt_pc]
    omega
  · have hadv := State.advance_pc_toNat hpc
    have hbounds : 2 ≤ s.advance.pc.toNat ∧ s.advance.pc.toNat ≤ 4096 := by omega
    exact ⟨exec_mem_wf hx hi.mem_wf, exec_pc_le hx hbounds.2 hi.return_addr,
      exec_return_addr hx hbounds hi.return_addr, exec_depth_le hx hi.depth_le,
      exec_parked_live hx hrun⟩

/-- A key event parks nobody, and leaves `HALT` and the source alone. -/
theorem keyEvent_inv {s : State} (hi : s.Inv) (phys : PhysKey) (pressed : Bool) :
    (keyEvent phys pressed s).Inv := by
  rw [keyEvent_same]
  refine hi.of_same rfl rfl rfl rfl fun hne => hi.parked_live fun hw => hne ?_
  rw [keyEvent_idle (.inl hw)]
  exact hw

/-- A disconnect closes the source and so leaves nobody parked (R252). -/
theorem disconnect_wait {s : State} (hi : s.Inv) : (disconnect s).wait = none := by
  by_cases hw : s.wait = none
  · rw [disconnect_idle (.inl hw)]
    exact hw
  · rw [disconnect_waiting hw (hi.parked_live hw).1]
    rfl

theorem disconnect_inv {s : State} (hi : s.Inv) : (disconnect s).Inv := by
  have hw := disconnect_wait hi
  rw [disconnect_same] at hw ⊢
  exact hi.of_same rfl rfl rfl rfl fun hne => absurd hw hne

theorem stepEnabled_iff {s : State} : stepEnabled s = true ↔ s.Running := by
  simp [stepEnabled, State.Running]

theorem runEvent_inv {e : Event} {s t : State} (hi : s.Inv) (h : runEvent e s = .next t) :
    t.Inv := by
  cases he : enabled e s with
  | false =>
    rw [runEvent_disabled he, next_inj] at h
    exact h ▸ hi
  | true =>
    rw [runEvent_enabled he] at h
    cases e with
    | step => exact runStep_inv hi (stepEnabled_iff.1 he) h
    | tick =>
      cases h
      exact hi.of_same rfl rfl rfl rfl hi.parked_live
    | key phys pressed =>
      cases h
      exact keyEvent_inv hi phys pressed
    | disconnect =>
      cases h
      exact disconnect_inv hi
    | snapshot =>
      cases h
      exact hi

/-- Settles O14: taking an event off the schedule keeps the invariant, and so does every event. -/
theorem stepKeepsInvariant : Obligations.StepKeepsInvariant := by
  intro s t hi h
  have hnext := eventComesNext_nextEvent s
  rw [step_of_event hnext] at h
  exact runEvent_inv (hnext.inv hi) h

/-- Settles O13: the reset memory lists no byte, the stack is empty, and nobody waits. -/
theorem resetMeetsInvariant : Obligations.ResetMeetsInvariant :=
  ⟨Memory.wf_nil, by decide, fun _ ha => absurd ha List.not_mem_nil, fun l _ => Nat.zero_le l,
    fun hne => absurd rfl hne⟩

end Sys2Proof.Machine
end

section
/-! The step cycle (spec/30_encoding.md R90, R91; spec/60_exceptions.md R230 to R236, R260). -/

namespace Sys2Proof

/-- Two bytes decode as the word they make (R61, R92). -/
theorem decode_pair {hi lo : Byte} {i : Instr} :
    decode [hi, lo] = .instr i [] ↔ decodeWord (wordOfBytes hi lo) = .instr i := by
  cases hd : decodeWord (wordOfBytes hi lo) <;> simp [decode, hd]

/-- The same for the model's own words (log entry 7). -/
theorem decodeTableWord_eq_some {nbits w : Nat} {i : Instr} :
    decodeTableWord nbits w = some i ↔ decodeWord (tableWord nbits w) = .instr i := by
  have hw := wordOfBytes_extract (tableWord nbits w)
  cases hd : decodeWord (tableWord nbits w) <;>
    simp [decodeTableWord, bytesOfWord, decode, hw, hd]

end Sys2Proof

namespace Sys2Proof.Machine

/-! ### A step that executes, and one that halts before -/

/-- The step cycle on a word that is an instruction (R90). -/
theorem runStep_instr {s : State} {i : Instr} (hpc : s.pc.toNat ≤ 4094)
    (hi : decodeWord (fetchWord s) = .instr i) : runStep s = exec i s.advance := by
  rw [runStep, checkRange_in (by omega), hi]
  rfl

/-- The step cycle on an illegal word (R90, R100). -/
theorem runStep_illegal {s : State} {c : Illegal} (hpc : s.pc.toNat ≤ 4094)
    (hc : decodeWord (fetchWord s) = .illegal c) :
    runStep s = .next (s.advance.setHalt (causeOfIllegal c)) :=
  runStep_next.2 (.inr (.inl ⟨by omega, c, hc, rfl⟩))

/-- The step cycle past the end of memory (R91). -/
theorem runStep_past_end {s : State} (hpc : 4095 ≤ s.pc.toNat) :
    runStep s = .next (s.setHalt .memRange) := runStep_next.2 (.inl ⟨hpc, rfl⟩)

/-- A step that comes to an enabled `Step` executes the instruction fetched (R90). -/
theorem step_executes {s s0 : State} {i : Instr} (hnext : StepComesNext s s0) (hrun : s0.Running)
    (hpc : s0.pc.toNat ≤ 4094) (hi : decodeWord (fetchWord s0) = .instr i) :
    step s = exec i s0.advance := by
  rw [step_running hnext hrun, runStep_instr hpc hi]

/-- Settles O7: the two bytes at `pc` make the fetched word. -/
theorem stepRunsTheDecodedInstruction : Obligations.StepRunsTheDecodedInstruction :=
  fun _ _ _ hnext hrun hpc hdec => step_executes hnext hrun hpc (decode_pair.1 hdec)

/-- Settles O8: a running Interpreter runs its step cycle, which ends before `exec` in these
cases. -/
theorem stepHaltsBeforeExecuting : Obligations.StepHaltsBeforeExecuting := by
  intro s s0 hnext hrun
  rw [step_running hnext hrun]
  exact ⟨runStep_illegal, runStep_illegal, runStep_past_end⟩

/-- A word stored at `pc` is the word fetched there (R61, R62). -/
theorem fetchWord_storeBytes (s : State) (w : Word) (hpc : s.pc.toNat ≤ 4094) :
    fetchWord (s.storeBytes s.pc.toNat (bytesOfWord w)) = w := by
  have hin : s.pc.toNat + (bytesOfWord w).length ≤ Config.memSize :=
    Nat.add_le_add_right hpc 2
  have hread (k : Nat) (hk : k < 2) : (s.mem.writeBytes s.pc.toNat (bytesOfWord w)).read
      (s.pc.toNat + k) = (bytesOfWord w)[k]?.getD 0#8 := by
    rw [Memory.read_writeBytes _ _ _ _ hin, if_pos ⟨Nat.le_add_right _ _, Nat.add_lt_add_left hk _⟩,
      Nat.add_sub_cancel_left]
  calc fetchWord (s.storeBytes s.pc.toNat (bytesOfWord w))
      = wordOfBytes (w.extractLsb' 8 8) (w.extractLsb' 0 8) :=
        congrArg₂ wordOfBytes (hread 0 (by decide)) (hread 1 (by decide))
    _ = w := wordOfBytes_extract w

/-- Settles O11: the `Step` put before the events to come fetches the word just stored. -/
theorem withFetchWordRunsTheWord : Obligations.WithFetchWordRunsTheWord := by
  intro s w i hpc hdec
  have hnext : StepComesNext (s.withFetchWord 16 w)
      { s.withFetchWord 16 w with schedule := s.schedule } := .inl ⟨rfl, rfl⟩
  have hword := congrArg decodeWord (fetchWord_storeBytes s (tableWord 16 w) hpc)
  exact step_executes hnext ⟨rfl, rfl⟩ hpc (hword.trans (decodeTableWord_eq_some.1 hdec))

/-! ### Every step answers with a state -/

theorem checkRange_total {a n : Nat} {s : State} {k : State → Answer} (hk : ∃ t, k s = .next t) :
    ∃ t, checkRange a n s k = .next t := by
  by_cases hin : a + n ≤ 4096
  · rwa [checkRange_in hin]
  · exact ⟨_, checkRange_out (by omega)⟩

theorem testKey_total (x : RegNum) (want : Bool) (s : State) : ∃ t, testKey x want s = .next t := by
  unfold testKey
  split <;> exact ⟨_, rfl⟩

/-- Every instruction answers with a state: its checks raise fatal conditions, which are states. -/
theorem exec_total (i : Instr) (s : State) : ∃ t, exec i s = .next t := by
  cases i
  case ret =>
    cases hs : s.stack with
    | nil => exact ⟨_, execRet_next.2 (.inl ⟨hs, rfl⟩)⟩
    | cons a rest => exact ⟨_, execRet_next.2 (.inr ⟨a, rest, hs, rfl⟩)⟩
  case call =>
    cases hfull : stackFull s with
    | true => exact ⟨_, execCall_next.2 (.inl ⟨hfull, rfl⟩)⟩
    | false => exact ⟨_, execCall_next.2 (.inr ⟨hfull, rfl⟩)⟩
  case ldVxK =>
    cases hopen : s.inputOpen with
    | false => exact ⟨_, execLdVxK_next.2 (.inl ⟨hopen, rfl⟩)⟩
    | true => exact ⟨_, execLdVxK_next.2 (.inr ⟨hopen, rfl⟩)⟩
  case skp x => exact testKey_total x true s
  case sknp x => exact testKey_total x false s
  case drw =>
    simp only [exec, execDrw]
    refine checkRange_total ?_
    split <;> exact ⟨_, rfl⟩
  case ldB | storeRegs | loadRegs =>
    all_goals
      simp only [exec, execLdB, execStoreRegs, execLoadRegs]
      exact checkRange_total ⟨_, rfl⟩
  all_goals exact ⟨_, rfl⟩

theorem runStep_total (s : State) : ∃ t, runStep s = .next t := by
  refine checkRange_total ?_
  cases decodeWord (fetchWord s) with
  | instr i => exact exec_total i s.advance
  | illegal c => exact ⟨_, rfl⟩

theorem runEvent_total (e : Event) (s : State) : ∃ t, runEvent e s = .next t := by
  cases he : enabled e s with
  | false => exact ⟨s, runEvent_disabled he⟩
  | true =>
    rw [runEvent_enabled he]
    cases e with
    | step => exact runStep_total s
    | tick | key phys pressed | disconnect | snapshot => exact ⟨_, rfl⟩

/-- Settles O12: a step is one event, and every event answers with a state. -/
theorem everyStepAnswersNext : Obligations.EveryStepAnswersNext := fun s =>
  runEvent_total (nextEvent s).1 (nextEvent s).2

/-! ### Fatal conditions -/

/-- Settles O15: the fetch, the decoder and the instruction each raise a fatal condition by
`setHalt` on the state they are given, and an effect leaves `HALT` as it was, none. -/
theorem fatalConditionsArePrecise : Obligations.FatalConditionsArePrecise := by
  intro s s0 t hnext hrun h hhalted
  rw [step_running hnext hrun] at h
  rcases runStep_next.1 h with ⟨hpc, rfl⟩ | ⟨hpc, c, -, rfl⟩ | ⟨hpc, i, -, hx⟩
  · exact ⟨rfl, .inr ⟨hpc, rfl, rfl⟩⟩
  · exact ⟨rfl, .inl ⟨by omega, rfl⟩⟩
  · rcases exec_cases hx with ⟨c, -, rfl⟩ | ⟨hkept, -⟩
    · exact ⟨rfl, .inl ⟨by omega, rfl⟩⟩
    · exact absurd (hkept.trans hrun.1) hhalted

end Sys2Proof.Machine
end

section
/-! The events of the other agents, and a halted or parked Interpreter (spec/10_state.md R38, R40;
spec/60_exceptions.md R237 to R261). -/

namespace Sys2Proof.Machine

/-- The state with other events to come. -/
def State.withEvents (s : State) (es : List Event) (l : Later) : State :=
  { s with schedule := es, later := l }

/-- Taking an event off leaves everything but the events to come, whatever those are. -/
theorem EventComesNext.exists_withEvents {e : Event} {s s0 : State} (h : EventComesNext e s s0) :
    ∃ es l, s0 = s.withEvents es l := ⟨_, _, h.same⟩

/-- A `Step` of a halted or parked Interpreter is not enabled (R9). -/
theorem enabled_step_eq_false {s : State} (h : s.Halted ∨ s.Parked) : enabled .step s = false := by
  rw [enabled, ← Bool.not_eq_true, stepEnabled_iff]
  rintro ⟨hhalt, hwait⟩
  exact h.elim (absurd hhalt) (absurd hwait)

/-- Settles O10: a disabled event leaves the state it is taken in. -/
theorem disabledEventHasNoEffect : Obligations.DisabledEventHasNoEffect := by
  constructor
  · intro s s0 hnext hstopped
    rw [step_of_event hnext, runEvent_disabled (enabled_step_eq_false hstopped)]
  · rintro s s0 phys pressed hclosed (hnext | hnext)
    · rw [step_of_event hnext, runEvent_disabled (e := .key phys pressed) hclosed]
    · rw [step_of_event hnext, runEvent_disabled (e := .disconnect) hclosed]

/-- A key event is a wake or only a transition of the mask (R248, R249). -/
theorem keyEvent_cases (phys : PhysKey) (pressed : Bool) (s : State) :
    (∃ x k, s.wait = some x ∧ pressed = true ∧ keyMap phys = some k ∧
      keyEvent phys pressed s =
        ((s.setKeys (maskAfter s phys true)).setReg x (keyByte k)).unpark) ∨
    keyEvent phys pressed s = s.setKeys (maskAfter s phys pressed) := by
  cases hw : s.wait with
  | none => exact .inr (keyEvent_idle (.inl hw))
  | some x =>
    cases hk : keyMap phys with
    | none => exact .inr (keyEvent_idle (.inr (.inr hk)))
    | some k =>
      cases pressed with
      | false => exact .inr (keyEvent_idle (.inr (.inl rfl)))
      | true => exact .inl ⟨x, k, rfl, rfl, rfl, keyEvent_wakes hw hk⟩

/-- A disconnect ends a wait or only closes the source (R252, R253). -/
theorem disconnect_cases (s : State) :
    (s.wait ≠ none ∧ s.halt = none ∧
      disconnect s = s.closeInput.unpark.setHalt .inputDisconnected) ∨
    ((s.wait = none ∨ s.halt ≠ none) ∧ disconnect s = s.closeInput) := by
  by_cases h : s.wait = none ∨ s.halt ≠ none
  · exact .inr ⟨h, disconnect_idle h⟩
  · obtain ⟨hwait, hhalt⟩ := not_or.1 h
    exact .inl ⟨hwait, not_not.1 hhalt, disconnect_waiting hwait (not_not.1 hhalt)⟩

/-- Everything an event can do: nothing, one step cycle, a tick, a key event or a disconnect. -/
theorem runEvent_cases {e : Event} {s t : State} (h : runEvent e s = .next t) :
    (e ≠ .tick ∧ t = s) ∨ (e = .step ∧ s.Running ∧ runStep s = .next t) ∨ (e = .tick ∧ t = tick s) ∨
    (∃ phys pressed, e = .key phys pressed ∧ t = keyEvent phys pressed s) ∨
    (e = .disconnect ∧ t = disconnect s) := by
  cases he : enabled e s with
  | false =>
    rw [runEvent_disabled he, next_inj] at h
    refine .inl ⟨?_, h⟩
    rintro rfl
    cases he
  | true =>
    rw [runEvent_enabled he] at h
    cases e with
    | step => exact .inr (.inl ⟨rfl, stepEnabled_iff.1 he, h⟩)
    | tick => exact .inr (.inr (.inl ⟨rfl, next_inj.1 h⟩))
    | key phys pressed =>
      exact .inr (.inr (.inr (.inl ⟨phys, pressed, rfl, next_inj.1 h⟩)))
    | disconnect => exact .inr (.inr (.inr (.inr ⟨rfl, next_inj.1 h⟩)))
    | snapshot => exact .inl ⟨nofun, next_inj.1 h⟩

/-- Settles O23: of the events that are no `Step`, only a wake writes a register, the waiting
one. -/
theorem otherAgentsKeepCpuState : Obligations.OtherAgentsKeepCpuState := by
  intro e s t hne h
  rcases runEvent_cases h with ⟨-, rfl⟩ | ⟨rfl, -⟩ | ⟨-, rfl⟩ | ⟨phys, pressed, rfl, rfl⟩ | ⟨-, rfl⟩
  · exact ⟨rfl, fun r => .inl rfl⟩
  · exact absurd rfl hne
  · exact ⟨rfl, fun r => .inl rfl⟩
  · rcases keyEvent_cases phys pressed s with ⟨x, k, hw, rfl, hk, hkey⟩ | hkey <;> rw [hkey]
    · refine ⟨rfl, fun r => ?_⟩
      by_cases hr : r = x
      · exact .inr ⟨hr ▸ hw, phys, k, rfl, hk⟩
      · exact .inl (State.reg_setReg_ne _ x _ r hr)
    · exact ⟨rfl, fun r => .inl rfl⟩
  · rcases disconnect_cases s with ⟨-, -, hd⟩ | ⟨-, hd⟩ <;> rw [hd]
    · exact ⟨rfl, fun r => .inl rfl⟩
    · exact ⟨rfl, fun r => .inl rfl⟩

/-- `t` differs from `s` at most in what other agents own: the timers, the mask, the source and the
events to come. -/
def SameInterpreter (s t : State) : Prop :=
  t = { s with dt := t.dt, st := t.st, keys := t.keys, inputOpen := t.inputOpen,
               schedule := t.schedule, later := t.later }

theorem SameInterpreter.trans {s t u : State} (hst : SameInterpreter s t)
    (htu : SameInterpreter t u) : SameInterpreter s u := by
  unfold SameInterpreter at *
  calc u = { t with dt := u.dt, st := u.st, keys := u.keys, inputOpen := u.inputOpen,
                    schedule := u.schedule, later := u.later } := htu
    _ = { s with dt := u.dt, st := u.st, keys := u.keys, inputOpen := u.inputOpen,
                 schedule := u.schedule, later := u.later } := by rw [hst]

/-- While nobody waits, a step that runs no step cycle leaves everything the Interpreter owns: a key
event only moves the mask, and a disconnect only closes the source. -/
theorem step_sameInterpreter {s t : State} (hwait : s.wait = none)
    (hidle : s.Halted ∨ s.eventAt 0 ≠ .step) (h : step s = .next t) : SameInterpreter s t := by
  have hnext := eventComesNext_nextEvent s
  rw [step_of_event hnext] at h
  rw [hnext.eventAt_zero] at hidle
  obtain ⟨es, l, hs0⟩ := hnext.exists_withEvents
  rw [hs0] at h
  rcases runEvent_cases h with
    ⟨-, rfl⟩ | ⟨he, hrun, -⟩ | ⟨-, rfl⟩ | ⟨phys, pressed, -, rfl⟩ | ⟨-, rfl⟩
  · rfl
  · exact hidle.elim (absurd hrun.1) (absurd he)
  · rfl
  · rw [keyEvent_idle (s := s.withEvents es l) (.inl hwait)]
    rfl
  · rw [disconnect_idle (s := s.withEvents es l) (.inl hwait)]
    rfl

/-- Settles O16: the invariant has nobody waiting in a halted state, where no `Step` is enabled. -/
theorem haltedMachineIsFrozen : Obligations.HaltedMachineIsFrozen := by
  intro s t hi hhalted h
  have hwait : s.wait = none := by
    by_contra hparked
    exact hhalted (hi.parked_live hparked).1
  exact step_sameInterpreter hwait (.inl hhalted) h

theorem keyByte_toNat (k : RegNum) : (keyByte k).toNat = k.val :=
  Nat.mod_eq_of_lt (k.isLt.trans (by decide))

/-- Settles O17: the invariant has the waiting Interpreter not halted, so that each event either
leaves the wait as it is, or is a wake, or is a disconnect that ends it. -/
theorem parkedMachineWaits : Obligations.ParkedMachineWaits := by
  intro s t x hi hw h
  have hparked : s.wait ≠ none := by simp [hw]
  have hlive := (hi.parked_live hparked).1
  have hnext := eventComesNext_nextEvent s
  rw [step_of_event hnext] at h
  obtain ⟨es, l, hs0⟩ := hnext.exists_withEvents
  rw [hs0] at h hnext
  rcases runEvent_cases h with
    ⟨-, rfl⟩ | ⟨-, hrun, -⟩ | ⟨-, rfl⟩ | ⟨phys, pressed, he, rfl⟩ | ⟨he, rfl⟩
  · exact ⟨rfl, .inl ⟨rfl, hw, hlive⟩⟩
  · exact absurd hrun.2 hparked
  · exact ⟨rfl, .inl ⟨rfl, hw, hlive⟩⟩
  · rw [he] at hnext
    rcases keyEvent_cases phys pressed (s.withEvents es l) with
      ⟨y, k, hy, rfl, hk, hkey⟩ | hkey <;> rw [hkey]
    · obtain rfl : x = y := Option.some.inj (hw.symm.trans hy)
      refine ⟨rfl, .inr (.inl ⟨phys, k, _, hnext, hk, rfl, hlive, ?_, fun r hr => ?_⟩)⟩
      · rw [State.reg_unpark, State.reg_setReg_same, keyByte_toNat]
      · exact State.reg_setReg_ne _ x _ r hr
    · exact ⟨rfl, .inl ⟨rfl, hw, hlive⟩⟩
  · rw [he] at hnext
    rw [disconnect_waiting (s := s.withEvents es l) hparked hlive]
    exact ⟨rfl, .inr (.inr ⟨_, hnext, rfl, rfl, rfl⟩)⟩

/-! ### Key events, disconnect and snapshot as steps -/

/-- A bit of the mask after a key event (R248). -/
theorem getLsbD_maskAfter {s : State} {phys : PhysKey} {k : RegNum} (hk : keyMap phys = some k)
    (pressed : Bool) (j : Nat) : (maskAfter s phys pressed).getLsbD j =
      if j = k.val then pressed else s.keys.getLsbD j := by
  rw [maskAfter, hk]
  exact getLsbD_updateKeys s.keys k pressed j

theorem maskAfter_unmapped {s : State} {phys : PhysKey} (hk : keyMap phys = none) (pressed : Bool) :
    maskAfter s phys pressed = s.keys := by rw [maskAfter, hk]

theorem EventComesNext.inputOpen_eq {e : Event} {s s0 : State} (h : EventComesNext e s s0) :
    s0.inputOpen = s.inputOpen := by rw [h.same]

theorem EventComesNext.wait_eq {e : Event} {s s0 : State} (h : EventComesNext e s s0) :
    s0.wait = s.wait := by rw [h.same]

theorem EventComesNext.halt_eq {e : Event} {s s0 : State} (h : EventComesNext e s s0) :
    s0.halt = s.halt := by rw [h.same]

theorem EventComesNext.keys_eq {e : Event} {s s0 : State} (h : EventComesNext e s s0) :
    s0.keys = s.keys := by rw [h.same]

theorem EventComesNext.reg_eq {e : Event} {s s0 : State} (h : EventComesNext e s s0) (r : RegNum) :
    s0.reg r = s.reg r := by rw [h.same]; rfl

/-- A key event is enabled while the source is open (R9). -/
theorem step_key {phys : PhysKey} {pressed : Bool} {s s0 : State}
    (h : EventComesNext (.key phys pressed) s s0) (hopen : s.inputOpen = true) :
    step s = .next (keyEvent phys pressed s0) := step_enabled h (h.inputOpen_eq.trans hopen)

/-- So is a disconnect. -/
theorem step_disconnect {s s0 : State} (h : EventComesNext .disconnect s s0)
    (hopen : s.inputOpen = true) : step s = .next (disconnect s0) :=
  step_enabled h (h.inputOpen_eq.trans hopen)

/-- Settles O53: the event is a wake, whose updates are one mask, one register and the wait. -/
theorem keyPressCompletesTheWait : Obligations.KeyPressCompletesTheWait := by
  intro s s0 phys k x hopen hw hk hnext
  refine ⟨_, (step_key hnext hopen).trans (congrArg _ (keyEvent_wakes (hnext.wait_eq.trans hw) hk)),
    rfl, ?_, fun r hr => ?_, ?_, fun j hj => ?_⟩
  · rw [State.reg_unpark, State.reg_setReg_same, keyByte_toNat]
  · rw [State.reg_unpark, State.reg_setReg_ne _ x _ r hr, State.reg_setKeys, hnext.reg_eq]
  · exact (getLsbD_maskAfter hk true k.val).trans (if_pos rfl)
  · exact (getLsbD_maskAfter hk true j).trans ((if_neg hj).trans (by rw [hnext.keys_eq]))

/-- Settles O54: any other key event is only `maskAfter`. -/
theorem otherKeyEventsOnlyUpdateTheMask : Obligations.OtherKeyEventsOnlyUpdateTheMask := by
  intro s s0 phys pressed hopen hidle hnext
  rw [← hnext.wait_eq] at hidle
  refine ⟨_, (step_key hnext hopen).trans (congrArg _ (keyEvent_idle hidle)), rfl,
    fun hk => ?_, fun k hk => ⟨?_, fun j hj => ?_⟩⟩
  · rw [State.setKeys_keys, maskAfter_unmapped hk, hnext.keys_eq]
  · exact (getLsbD_maskAfter hk pressed k.val).trans (if_pos rfl)
  · exact (getLsbD_maskAfter hk pressed j).trans ((if_neg hj).trans (by rw [hnext.keys_eq]))

/-- Settles O56: the two clauses are the two cases of a disconnect. -/
theorem disconnectEndsTheWait : Obligations.DisconnectEndsTheWait := by
  intro s s0 hopen hnext
  rw [step_disconnect hnext hopen, ← hnext.wait_eq, ← hnext.halt_eq]
  constructor
  · intro hwait hhalt
    rw [disconnect_waiting hwait hhalt]
    rfl
  · intro hidle
    rw [disconnect_idle hidle]
    rfl

/-- Settles O60: a snapshot is enabled in every state and answers the state it is taken in. -/
theorem snapshotReadsTheFramebuffer : Obligations.SnapshotReadsTheFramebuffer :=
  fun _ _ hnext => ⟨rfl, step_enabled hnext rfl⟩

/-- The physical key of each logical key, from 0 to F (R247). -/
def physOf (k : RegNum) : PhysKey :=
  #v[.keyX, .key1, .key2, .key3, .keyQ, .keyW, .keyE, .keyA,
     .keyS, .keyD, .keyZ, .keyC, .key4, .keyR, .keyF, .keyV][k]

theorem keyMap_physOf : ∀ k : RegNum, keyMap (physOf k) = some k := by decide

/-- The key map takes no logical key twice (R247). -/
theorem eq_physOf_of_keyMap {q : PhysKey} {k : RegNum} (h : keyMap q = some k) : q = physOf k := by
  cases q <;> cases h <;> rfl

/-- Settles O55: `physOf` inverts the key map. -/
theorem keyMapIsOneToOne : Obligations.KeyMapIsOneToOne :=
  ⟨by decide, fun k => ⟨physOf k, keyMap_physOf k, fun _ => eq_physOf_of_keyMap⟩, fun _ => rfl⟩

end Sys2Proof.Machine
end

section
/-! The reset (spec/70_reset_and_hazards.md R270 to R272). -/

namespace Sys2Proof.Machine

/-! ### The default reset -/

/-- Right after reset every address reads as unlisted (log entry 1). -/
theorem read_reset (a : Nat) : State.reset.mem.read a = unlisted a := rfl

theorem reg_reset (r : RegNum) : State.reset.reg r = 0 := by
  simp [State.reset, State.reg]

/-- Settles O25: the reset state is given field by field, and its memory lists no byte, so that
every address reads as unlisted. -/
theorem resetValues : Obligations.ResetValues :=
  ⟨rfl, rfl, reg_reset, rfl, rfl, rfl, rfl, FrameBuffer.bit_clear, rfl, rfl, rfl, rfl, rfl, rfl,
    rfl, fun k _ => unlisted_font k, fun a ha => unlisted_zero a ha⟩

/-! ### `Reset` with its parameters -/

/-- The memory after `Reset`: the font, then the program. -/
def loadedMemory (font : Vector Byte 80) (program : List Byte) : Memory :=
  (State.reset.mem.writeBytes Config.fontBase font.toList).writeBytes Config.loadAddr program

/-- An image that fits is loaded (R270). -/
theorem resetEvent_of_fits {program : List Byte} (hfits : program.length ≤ 3584)
    (font : Vector Byte 80) (limit : Option Nat) (schedule : List Event) (later : Later) :
    resetEvent font limit program schedule later = .next { State.reset with
      mem := loadedMemory font program, stackLimit := limit,
      schedule := schedule, later := later } :=
  if_neg (Nat.not_lt.2 hfits)

/-- Settles O27: the length is checked before anything is loaded. -/
theorem resetRefusesLongImage : Obligations.ResetRefusesLongImage :=
  fun _ _ _ _ _ hlong => if_pos hlong

theorem loadedMemory_wf (font : Vector Byte 80) (program : List Byte) :
    (loadedMemory font program).wf :=
  Memory.wf_writeBytes _ _ _ (Memory.wf_writeBytes _ _ _ Memory.wf_nil)

/-- Every byte of the memory after `Reset`: the program's, the font's, or 0 (R270, D2). -/
theorem read_loadedMemory (font : Vector Byte 80) {program : List Byte}
    (hfits : program.length ≤ 3584) (a : Nat) : (loadedMemory font program).read a =
      if 0x200 ≤ a ∧ a < 0x200 + program.length then program[a - 0x200]?.getD 0#8
      else if 0x050 ≤ a ∧ a < 0x0A0 then font[a - 0x050]?.getD 0#8
      else 0#8 := by
  have hprog : Config.loadAddr + program.length ≤ Config.memSize := by
    simp only [Config.loadAddr, Config.memSize]
    omega
  have hfont : Config.fontBase + font.toList.length ≤ Config.memSize := by
    rw [Vector.length_toList]
    decide
  rw [loadedMemory, Memory.read_writeBytes _ _ _ _ hprog, Memory.read_writeBytes _ _ _ _ hfont,
    read_reset]
  simp only [Vector.length_toList, Config.loadAddr, Config.fontBase, Nat.reduceAdd]
  congr 1
  by_cases ha : 0x050 ≤ a ∧ a < 0x0A0
  · simp only [if_pos ha]
    simp
  · simp only [if_neg ha]
    exact unlisted_zero a (by omega)

/-- Settles O26: `read_loadedMemory` at each of the disjoint ranges; what the loads do not reach is
as in `State.reset`. -/
theorem resetLoadsFontAndProgram : Obligations.ResetLoadsFontAndProgram := by
  intro font limit program schedule later hfits
  have hreset : State.reset.Inv := resetMeetsInvariant
  refine ⟨_, resetEvent_of_fits hfits font limit schedule later, ?_, rfl, ?_, ?_, ?_⟩
  · exact ⟨loadedMemory_wf font program, hreset.pc_le, hreset.return_addr, fun l _ => Nat.zero_le l,
      hreset.parked_live⟩
  · intro k hk
    rw [read_loadedMemory font hfits, if_neg (by omega), if_pos (by omega), Nat.add_sub_cancel_left]
    rfl
  · intro k hk
    rw [read_loadedMemory font hfits, if_pos (by omega), Nat.add_sub_cancel_left]
    rfl
  · intro a ha
    rw [read_loadedMemory font hfits, if_neg (by omega), if_neg (by omega)]
    rfl

/-- Settles O28: writing the default font over the reset memory, which reads as that font, changes
no byte, and canonical memories with the same bytes are the same list. -/
theorem defaultResetIsReset : Obligations.DefaultResetIsReset := by
  intro font hfont
  have hmem : loadedMemory font [] = [] := by
    refine Memory.eq_of_read _ _ (loadedMemory_wf font []) Memory.wf_nil fun a => ?_
    rw [read_loadedMemory font (Nat.zero_le _), List.length_nil, if_neg (by omega)]
    split_ifs with ha
    · obtain ⟨k, rfl⟩ := Nat.exists_eq_add_of_le ha.1
      rw [Nat.add_sub_cancel_left, ← Vector.getElem?_toList, hfont]
      exact (unlisted_font k).symm
    · exact (unlisted_zero a (by omega)).symm
  rw [resetEvent_of_fits (Nat.zero_le _), hmem]
  rfl

end Sys2Proof.Machine
end

section
/-! Control flow (spec/40_control_flow.md R111 to R114). -/

namespace Sys2Proof.Machine

/-- Settles O29: each jump is one `setPc`, of the widened address or of the unreduced sum. -/
theorem jumpsGoToTheirTargets : Obligations.JumpsGoToTheirTargets := fun nnn s =>
  ⟨⟨s.setPc (zextAddr nnn), rfl, rfl, zextAddr_toNat nnn⟩,
   ⟨s.setPc (zextByte (s.reg 0) + zextAddr nnn), rfl, rfl, zextByte_add_zextAddr_toNat _ nnn⟩⟩

/-- The stack is full when its depth is a finite STACK_LIMIT (R113). -/
theorem stackFull_iff {s : State} : stackFull s = true ↔ s.stackLimit = some s.stack.length := by
  unfold stackFull
  cases s.stackLimit <;> simp [eq_comm]

/-- Settles O31: the two clauses are the two answers of `execCall_next`. -/
theorem callPushesTheFollowingAddress : Obligations.CallPushesTheFollowingAddress := by
  intro nnn s
  constructor
  · intro hfree
    have hnot : stackFull s = false :=
      Bool.eq_false_iff.2 fun hfull => hfree _ (stackFull_iff.1 hfull) rfl
    exact ⟨_, execCall_next.2 (.inr ⟨hnot, rfl⟩), rfl, zextAddr_toNat nnn⟩
  · intro hfull
    exact execCall_next.2 (.inl ⟨stackFull_iff.2 hfull, rfl⟩)

end Sys2Proof.Machine
end

section
/-! Arithmetic, logic, shifts and random (spec/41_alu.md R130 to R144). -/

namespace Sys2Proof.Machine

/-- Settles O34: each is one `setReg`, of the wrapped sum or of the bitwise result. -/
theorem addImmediateAndLogic : Obligations.AddImmediateAndLogic := by
  intro x y nn s
  refine ⟨?add, ?or, ?and, ?xor⟩
  case add =>
    refine ⟨s.setReg x (s.reg x + nn), rfl, rfl, ?_, s.reg_setReg_ne x _⟩
    rw [State.reg_setReg_same, BitVec.toNat_add]
  case or =>
    refine ⟨s.setReg x (s.reg x ||| s.reg y), rfl, rfl, fun k => ?_, s.reg_setReg_ne x _⟩
    rw [State.reg_setReg_same, BitVec.getLsbD_or]
  case and =>
    refine ⟨s.setReg x (s.reg x &&& s.reg y), rfl, rfl, fun k => ?_, s.reg_setReg_ne x _⟩
    rw [State.reg_setReg_same, BitVec.getLsbD_and]
  case xor =>
    refine ⟨s.setReg x (s.reg x ^^^ s.reg y), rfl, rfl, fun k => ?_, s.reg_setReg_ne x _⟩
    rw [State.reg_setReg_same, BitVec.getLsbD_xor]

/-- A flag as a number (R24). -/
theorem flagByte_decide_toNat (p : Prop) [Decidable p] :
    (flagByte (decide p)).toNat = if p then 1 else 0 := by
  by_cases hp : p <;> simp [flagByte, hp]

section
variable (s : State) (x : RegNum) (a f : Byte)

/-- The result survives the flag unless it went to `V[15]` (R131). -/
theorem State.resultThenFlag_reg_result (hx : x ≠ vf) : (s.resultThenFlag x a f).reg x = a := by
  rw [State.reg_resultThenFlag, if_neg hx, if_pos rfl]

/-- The flag, written last, is there in any case (R131). -/
theorem State.resultThenFlag_reg_vf : (s.resultThenFlag x a f).reg vf = f := by
  rw [State.reg_resultThenFlag, if_pos rfl]

theorem State.resultThenFlag_reg_other (r : RegNum) (hx : r ≠ x) (hvf : r ≠ vf) :
    (s.resultThenFlag x a f).reg r = s.reg r := by
  rw [State.reg_resultThenFlag, if_neg hvf, if_neg hx]

end

/-- Subtraction of bytes wraps (R130). -/
theorem byte_sub_toNat (a b : Byte) : (a - b).toNat = (a.toNat + 256 - b.toNat) % 256 := by
  rw [BitVec.toNat_sub]
  omega

/-- Settles O35: each is `resultThenFlag` of the wrapped result and the flag that compares the
operands. -/
theorem addAndSubtractSetTheFlag : Obligations.AddAndSubtractSetTheFlag := by
  intro x y s
  refine ⟨?add, ?sub, ?subn⟩
  case add =>
    refine ⟨s.resultThenFlag x (s.reg x + s.reg y) (carryFlag (s.reg x) (s.reg y)), rfl, rfl,
      fun hx => ?_, ?_, s.resultThenFlag_reg_other x _ _⟩
    · rw [s.resultThenFlag_reg_result x _ _ hx, BitVec.toNat_add]
    · rw [s.resultThenFlag_reg_vf, carryFlag, flagByte_decide_toNat]
  case sub =>
    refine ⟨s.resultThenFlag x (s.reg x - s.reg y) (noBorrowFlag (s.reg x) (s.reg y)), rfl, rfl,
      fun hx => ?_, ?_, s.resultThenFlag_reg_other x _ _⟩
    · rw [s.resultThenFlag_reg_result x _ _ hx, byte_sub_toNat]
    · rw [s.resultThenFlag_reg_vf, noBorrowFlag, flagByte_decide_toNat]
  case subn =>
    refine ⟨s.resultThenFlag x (s.reg y - s.reg x) (noBorrowFlag (s.reg y) (s.reg x)), rfl, rfl,
      fun hx => ?_, ?_, s.resultThenFlag_reg_other x _ _⟩
    · rw [s.resultThenFlag_reg_result x _ _ hx, byte_sub_toNat]
    · rw [s.resultThenFlag_reg_vf, noBorrowFlag, flagByte_decide_toNat]

/-- The bit `8XY6` shifts out is the remainder by 2 (R140). -/
theorem lowBitFlag_toNat (a : Byte) : (lowBitFlag a).toNat = a.toNat % 2 := by
  have hbit : a.getLsbD 0 = decide (a.toNat % 2 = 1) := Nat.testBit_zero _
  rw [lowBitFlag, hbit, flagByte_decide_toNat]
  split_ifs <;> omega

/-- The bit `8XYE` shifts out is the quotient by 128 (R142). -/
theorem highBitFlag_toNat (a : Byte) : (highBitFlag a).toNat = a.toNat / 128 := by
  have hbit : a.getLsbD 7 = decide (a.toNat / 128 % 2 = 1) := Nat.testBit_eq_decide_div_mod_eq
  have ha : a.toNat < 256 := a.isLt
  rw [highBitFlag, hbit, flagByte_decide_toNat]
  split_ifs <;> omega

/-- Settles O36: `8XY6` is `flagThenResult`, so that with `X = 0xF` it shifts its own flag out;
`8XYE` is `resultThenFlag`. -/
theorem shiftsSetTheFlag : Obligations.ShiftsSetTheFlag := by
  intro x y s
  constructor
  case left =>
    refine ⟨s.flagThenResult x (lowBitFlag (s.reg x)) (fun a => a >>> 1), rfl, rfl,
      fun hx => ⟨?_, ?_⟩, fun hx => ?_, fun r hr hvf => ?_⟩
    · rw [State.reg_flagThenResult, if_pos rfl, if_neg hx, BitVec.toNat_ushiftRight]
      exact Nat.shiftRight_one _
    · rw [State.reg_flagThenResult, if_neg (Ne.symm hx), if_pos rfl, lowBitFlag_toNat]
    · subst hx
      rw [State.reg_flagThenResult, if_pos rfl, if_pos rfl, lowBitFlag]
      cases (s.reg vf).getLsbD 0 <;> rfl
    · rw [State.reg_flagThenResult, if_neg hr, if_neg hvf]
  case right =>
    refine ⟨s.resultThenFlag x (s.reg x <<< 1) (highBitFlag (s.reg x)), rfl, rfl,
      fun hx => ?_, ?_, s.resultThenFlag_reg_other x _ _⟩
    · rw [s.resultThenFlag_reg_result x _ _ hx, BitVec.toNat_shiftLeft, Nat.shiftLeft_eq,
        Nat.mul_comm]
    · rw [s.resultThenFlag_reg_vf, highBitFlag_toNat]

/-- Settles O37: one `setReg` of the masked draw, and the draw counted. -/
theorem randomIsAMaskedDraw : Obligations.RandomIsAMaskedDraw := by
  intro x nn s
  have hx : ((s.setReg x (s.drawn &&& nn)).countDraw).reg x = Config.randomByte s.draws &&& nn :=
    s.reg_setReg_same x _
  refine ⟨_, rfl, rfl, hx, fun k hk => ?_, s.reg_setReg_ne x _⟩
  rw [hx, BitVec.getLsbD_and, hk, Bool.and_false]

end Sys2Proof.Machine
end

section
/-! The index register and memory (spec/42_index_memory.md R160 to R167). -/

namespace Sys2Proof.Machine

/-- `FX29`'s address fits a word for every byte (R163, D29). -/
theorem glyphAddr_toNat (b : Byte) : (glyphAddr b).toNat = 0x0050 + 5 * b.toNat := by
  rw [glyphAddr, BitVec.toNat_ofNat, Config.fontBase]
  omega

/-- Settles O39: each is one `setIndex`. -/
theorem indexAddAndGlyphAddress : Obligations.IndexAddAndGlyphAddress := by
  intro x s
  constructor
  · refine ⟨s.setIndex (s.i + zextByte (s.reg x)), rfl, rfl, ?_⟩
    have hb : (zextByte (s.reg x)).toNat = (s.reg x).toNat :=
      BitVec.toNat_setWidth_of_le (by decide)
    rw [State.setIndex_i, BitVec.toNat_add, hb]
  · exact ⟨s.setIndex (glyphAddr (s.reg x)), rfl, rfl, glyphAddr_toNat (s.reg x)⟩

/-- A byte stored from `I` on, in range, is read back at its place (R62). -/
theorem Memory.read_writeBytes_at (m : Memory) {a : Nat} {bs : List Byte}
    (hin : a + bs.length ≤ 4096) {k : Nat} (hk : k < bs.length) :
    (m.writeBytes a bs).read (a + k) = bs[k] := by
  rw [Memory.read_writeBytes bs m a _ hin, if_pos (by omega), Nat.add_sub_cancel_left,
    List.getElem?_eq_getElem hk, Option.getD_some]

/-- A byte outside what is stored from `I` on is as before. -/
theorem Memory.read_writeBytes_outside (m : Memory) {a : Nat} {bs : List Byte}
    (hin : a + bs.length ≤ 4096) {q : Nat} (hq : ¬ (a ≤ q ∧ q < a + bs.length)) :
    (m.writeBytes a bs).read q = m.read q := by
  rw [Memory.read_writeBytes bs m a q hin, if_neg hq]

/-- Settles O40: the bytes stored are the quotients and remainders that make the decimal digits. -/
theorem bcdStoresThreeDigits : Obligations.BcdStoresThreeDigits := by
  intro x s hi
  have hin : s.i.toNat + (bcdDigits (s.reg x)).length ≤ 4096 := Nat.succ_le_succ hi
  have hlt := (s.reg x).isLt
  have hundreds := s.mem.read_writeBytes_at hin (show 0 < 3 by decide)
  have tens := s.mem.read_writeBytes_at hin (show 1 < 3 by decide)
  have ones := s.mem.read_writeBytes_at hin (show 2 < 3 by decide)
  simp only [bcdDigits, List.getElem_cons_zero, List.getElem_cons_succ, Nat.add_zero]
    at hundreds tens ones
  refine ⟨_, execLdB_next.2 (.inl ⟨hin, rfl⟩), rfl, ?hundreds, ?tens, ?ones, ?value,
    fun a ha => ?frame⟩
  case frame =>
    exact s.mem.read_writeBytes_outside hin fun h => ha ⟨h.1, Nat.le_of_lt_succ h.2⟩
  all_goals
    simp only [State.storeBytes_mem, bcdDigits, hundreds, tens, ones, BitVec.toNat_ofNat]
    omega

/-- After `FX55`, in range, the byte at `I + k` is `V[k]` (R165). -/
theorem read_storeRegs {x : RegNum} {s : State} (hi : s.i.toNat + x.val ≤ 4095) {k : RegNum}
    (hk : k ≤ x) :
    (s.mem.writeBytes s.i.toNat (s.regsUpTo x)).read (s.i.toNat + k.val) = s.reg k := by
  have hlen := s.length_regsUpTo x
  have hkx : k.val < (s.regsUpTo x).length := hlen ▸ Nat.lt_succ_of_le hk
  rw [s.mem.read_writeBytes_at (by omega) hkx]
  exact Option.some.inj ((List.getElem?_eq_getElem hkx).symm.trans (s.getElem?_regsUpTo x k hk))

/-- Settles O41: `read_storeRegs` inside the range, and memory as before outside. -/
theorem registerDumpStoresInOrder : Obligations.RegisterDumpStoresInOrder := by
  intro x s hi
  have hlen := s.length_regsUpTo x
  refine ⟨_, execStoreRegs_next.2 (.inl ⟨by omega, rfl⟩), rfl, fun k hk => read_storeRegs hi hk,
    fun a ha => ?_⟩
  exact s.mem.read_writeBytes_outside (by omega) (by omega)

/-- Settles O42: the bytes read from `I` on, in order, are loaded in order. -/
theorem registerLoadReadsInOrder : Obligations.RegisterLoadReadsInOrder := by
  intro x s hi
  refine ⟨_, execLoadRegs_next.2 (.inl ⟨by omega, rfl⟩), rfl, fun k => ?_⟩
  rw [State.reg_loadRegsFrom, Memory.length_readBytes]
  by_cases hk : k ≤ x
  · have hlt : k.val < x.val + 1 := Nat.lt_succ_of_le hk
    rw [if_pos hlt, if_pos hk, Memory.getElem?_readBytes _ _ _ _ hlt, Option.getD_some]
  · rw [if_neg fun hlt => hk (Nat.le_of_lt_succ hlt), if_neg hk]

/-- Settles O43: the load reads at `I + k` what the dump stored there, `V[k]`. -/
theorem dumpThenLoadRestores : Obligations.DumpThenLoadRestores := by
  intro x s t u w hi hstore hindex hkept hload k hk
  obtain ⟨t', ht', hframe, hstored, -⟩ := registerDumpStoresInOrder x s hi
  obtain rfl : t = t' := next_inj.1 (ht'.symm.trans hstore)
  have hui : u.i = s.i := by rw [hindex, hframe]
  obtain ⟨w', hw', -, hloaded⟩ := registerLoadReadsInOrder x u (hui ▸ hi)
  obtain rfl : w = w' := next_inj.1 (hw'.symm.trans hload)
  have hkx : k.val ≤ x.val := hk
  calc w.reg k = u.mem.read (u.i.toNat + k.val) := by rw [hloaded, if_pos hk]
    _ = t.mem.read (s.i.toNat + k.val) := by rw [hui, hkept _ (by omega) (by omega)]
    _ = s.reg k := hstored k hk

/-- Settles O45: the two bytes fetched are the stored `V[k]` and `V[k + 1]`. -/
theorem storedBytesAreFetched : Obligations.StoredBytesAreFetched := by
  intro x k l s t hi hkl hlx hstore hpc
  obtain ⟨t', ht', -, hstored, -⟩ := registerDumpStoresInOrder x s hi
  obtain rfl : t = t' := next_inj.1 (ht'.symm.trans hstore)
  have hkx : k ≤ x := (Nat.le_of_lt (hkl ▸ Nat.lt_succ_self k.val)).trans hlx
  rw [fetchWord, hpc, hstored k hkx, Nat.add_assoc, ← hkl, hstored l hlx]

/-- Settles O44: each instruction checks its whole range first. -/
theorem accessPastTheEndHalts : Obligations.AccessPastTheEndHalts := by
  intro x y n s
  refine ⟨fun hout => ?_, fun hout => ?_, fun hout => ?_, fun hout => ?_⟩
  · exact execLdB_next.2 (.inr ⟨by omega, rfl⟩)
  · exact execStoreRegs_next.2 (.inr ⟨by omega, rfl⟩)
  · exact execLoadRegs_next.2 (.inr ⟨by omega, rfl⟩)
  · exact execDrw_next.2 (.inl ⟨hout, rfl⟩)

end Sys2Proof.Machine
end

section
/-! Key tests and the key wait (spec/44_keys_timers.md R201 to R205). -/

namespace Sys2Proof.Machine

/-- Settles O51: up to 15 a key test skips on the held bit or on its negation; above it is
`BadKey`. -/
theorem keyTestsSampleTheMask : Obligations.KeyTestsSampleTheMask := by
  intro x s
  constructor
  · intro hkey
    refine ⟨testKey_next.2 (.inr ⟨hkey, ?_⟩), testKey_next.2 (.inr ⟨hkey, ?_⟩)⟩
    all_goals
      rw [skipIf_eq, keyHeld]
      cases s.keys.getLsbD (s.reg x).toNat <;> rfl
  · intro hbad
    exact ⟨testKey_next.2 (.inl ⟨hbad, rfl⟩), testKey_next.2 (.inl ⟨hbad, rfl⟩)⟩

/-- Settles O52: the two clauses are the two answers of `execLdVxK_next`. -/
theorem keyWaitParks : Obligations.KeyWaitParks := fun _ _ =>
  ⟨fun hopen => execLdVxK_next.2 (.inr ⟨hopen, rfl⟩),
   fun hclosed => execLdVxK_next.2 (.inl ⟨hclosed, rfl⟩)⟩

end Sys2Proof.Machine
end

section
/-! Drawing (spec/43_display.md R181 to R188). -/

namespace Sys2Proof.Machine

/-! ### `DXYN` -/

section
variable {s : State} {x y : RegNum} {n : Nat}

/-- `DXYN` in range that keeps to the screen is the drawing (R186). -/
theorem exec_drw_fits (hin : s.i.toNat + n ≤ 4096) (hfits : ¬ spriteSpillsOut s x y n) :
    exec (.drw x y n) s = .next (drawSprite x y n s) :=
  execDrw_next.2 (.inr (.inr ⟨hin,
    Bool.eq_false_iff.2 fun h => hfits ((spillsOut_iff_spriteSpillsOut s x y n).1 h), rfl⟩))

/-- A pixel after the drawing: inverted when the sprite sets it (R186). -/
theorem bit_drawSprite (hfits : ¬ spriteSpillsOut s x y n) (q : Nat) :
    (drawSprite x y n s).fb.bit q = (s.fb.bit q ^^ decide (q ∈ spritePixels s x y n)) := by
  rw [drawSprite_eq]
  exact (drawPixels_spec _ (s.fb, false) (nodup_spritePixels s x y n) (spritePixels_lt hfits)).1 q

/-- The flag after the drawing: 1 when a pixel the sprite sets was set (R186). -/
theorem vf_drawSprite (hfits : ¬ spriteSpillsOut s x y n) :
    (drawSprite x y n s).reg vf = flagByte ((spritePixels s x y n).any s.fb.bit) := by
  have hhit := (drawPixels_spec _ (s.fb, false) (nodup_spritePixels s x y n)
    (spritePixels_lt hfits)).2
  rw [drawSprite_eq, State.reg_setReg_same, hhit, Bool.false_or]
  rfl

end

/-- Settles O47: the sprite's pixels are distinct pixels of the screen, and the drawing inverts each
of them once. -/
theorem drawXorsThePixels : Obligations.DrawXorsThePixels := by
  intro x y n s hin hfits
  refine ⟨_, exec_drw_fits hin hfits, ?_, fun q hq => ?_, fun q hq => ?_, ?_, fun hclear => ?_,
    fun r hr => ?_⟩
  · rw [drawSprite_eq]
    rfl
  · simp [bit_drawSprite hfits, mem_spritePixels, hq]
  · simp [bit_drawSprite hfits, mem_spritePixels, hq]
  · rintro ⟨q, hq, hset⟩
    have hany : (spritePixels s x y n).any s.fb.bit = true :=
      List.any_eq_true.2 ⟨q, (mem_spritePixels s x y n q).2 hq, hset⟩
    rw [vf_drawSprite hfits, hany]
    rfl
  · have hany : (spritePixels s x y n).any s.fb.bit = false :=
      List.any_eq_false.2 fun q hq => by simp [hclear q ((mem_spritePixels s x y n q).1 hq)]
    rw [vf_drawSprite hfits, hany]
    rfl
  · rw [drawSprite_eq, State.reg_setReg_ne _ vf _ r hr, State.reg_setFrame]

/-- Settles O48: the memory check passes and the last-row check does not. -/
theorem drawPastTheLastByteHalts : Obligations.DrawPastTheLastByteHalts :=
  fun x y n s hin hspill => execDrw_next.2
    (.inr (.inl ⟨hin, (spillsOut_iff_spriteSpillsOut s x y n).2 hspill, rfl⟩))

theorem Memory.readBytes_congr {m k : Memory} (h : ∀ a, m.read a = k.read a) (a n : Nat) :
    m.readBytes a n = k.readBytes a n := by
  induction n generalizing a with
  | zero => rfl
  | succ n ih => rw [Memory.readBytes, Memory.readBytes, h, ih]

/-- The pixels of a sprite depend on its coordinates, on `I` and on memory alone. -/
theorem spritePixels_congr {s t : State} {x y : RegNum} (n : Nat) (hx : t.reg x = s.reg x)
    (hy : t.reg y = s.reg y) (hi : t.i = s.i) (hmem : ∀ a, t.mem.read a = s.mem.read a) :
    spritePixels t x y n = spritePixels s x y n := by
  simp only [spritePixels, originCol, originRow, hx, hy, hi, Memory.readBytes_congr hmem]

theorem spriteSpillsOut_congr {s t : State} {x y : RegNum} (n : Nat) (hx : t.reg x = s.reg x)
    (hy : t.reg y = s.reg y) : spriteSpillsOut t x y n ↔ spriteSpillsOut s x y n := by
  rw [spriteSpillsOut, spriteSpillsOut, hx, hy]

theorem flagByte_eq_one_iff {c : Bool} : flagByte c = 1 ↔ c = true := by
  cases c <;> decide

/-- Settles O50: both draws invert the same pixels, so each is inverted twice; the second draw finds
a set pixel where the first found a clear one. -/
theorem drawTwiceRestores : Obligations.DrawTwiceRestores := by
  intro x y n s t t' u hin hfits hfirst hfb hx hy hi hmem hsecond
  have hpixels := spritePixels_congr n hx hy hi hmem
  have hfits' : ¬ spriteSpillsOut t' x y n := fun h => hfits ((spriteSpillsOut_congr n hx hy).1 h)
  obtain rfl : drawSprite x y n s = t := next_inj.1 (hfirst.symm.trans (exec_drw_fits hin hfits))
  obtain rfl : drawSprite x y n t' = u :=
    next_inj.1 (hsecond.symm.trans (exec_drw_fits (hi ▸ hin) hfits'))
  have hbetween (q : Nat) : t'.fb.bit q = (s.fb.bit q ^^ decide (q ∈ spritePixels s x y n)) := by
    rw [hfb, bit_drawSprite hfits]
  constructor
  · refine FrameBuffer.eq_of_bit _ _ fun q _ => ?_
    rw [bit_drawSprite hfits', hpixels, hbetween, Bool.xor_assoc, Bool.xor_self, Bool.xor_false]
  · rw [vf_drawSprite hfits', hpixels, flagByte_eq_one_iff, List.any_eq_true]
    refine exists_congr fun q => ?_
    rw [mem_spritePixels]
    refine and_congr_right fun hq => ?_
    simp [hbetween, mem_spritePixels, hq]

/-! ### One row, byte-wise -/

theorem nodup_bitPixels (b : Byte) (p : Nat) : (bitPixels b p (List.range 8)).Nodup := by
  have hrow := nodup_rowPixels [b] p
  rwa [rowPixels, rowPixels, List.append_nil] at hrow

theorem drawRow_eq (b : Byte) (p : Nat) (cv : Canvas) :
    drawRow b p cv = drawPixels (bitPixels b p (List.range 8)) cv := drawBits_eq b p _ cv

theorem drawPixels_append (ps qs : List Nat) (cv : Canvas) :
    drawPixels (ps ++ qs) cv = drawPixels qs (drawPixels ps cv) := List.foldl_append

/-- The order in which distinct pixels of the screen are flipped makes no difference. -/
theorem drawPixels_eq_of_mem {ps qs : List Nat} (hps : ps.Nodup) (hqs : qs.Nodup)
    (hlt : ∀ p ∈ ps, p < 2048) (hmem : ∀ q, q ∈ ps ↔ q ∈ qs) (cv : Canvas) :
    drawPixels ps cv = drawPixels qs cv := by
  obtain ⟨hbits, hhit⟩ := drawPixels_spec ps cv hps hlt
  obtain ⟨hbits', hhit'⟩ := drawPixels_spec qs cv hqs fun q hq => hlt q ((hmem q).2 hq)
  refine Prod.ext (FrameBuffer.eq_of_bit _ _ fun q _ => ?_) ?_
  · rw [hbits, hbits', decide_eq_decide.2 (hmem q)]
  · rw [hhit, hhit', ((List.perm_ext_iff_of_nodup hps hqs).2 hmem).any_eq]

/-- A byte XORed into byte `j` of the framebuffer, and whether a set bit met a set bit (R187). -/
def xorByte (j : Nat) (b : Byte) (cv : Canvas) : Canvas :=
  let old := cv.1[j]?.getD 0#8
  (cv.1.setIfInBounds j (old ^^^ b), cv.2 || decide (old &&& b ≠ 0#8))

/-- A row that starts at the first pixel of byte `j` lies in that byte. -/
theorem mem_bitPixels_aligned (b : Byte) (j q : Nat) :
    q ∈ bitPixels b (8 * j) (List.range 8) ↔ q / 8 = j ∧ b.getLsbD (7 - q % 8) = true := by
  rw [mem_bitPixels]
  constructor
  · rintro ⟨c, hc, rfl, hb⟩
    have hmod : (8 * j + c) % 8 = c := by omega
    exact ⟨by omega, by rwa [hmod]⟩
  · rintro ⟨rfl, hb⟩
    exact ⟨q % 8, by omega, by omega, hb⟩

/-- The pixels a byte XOR inverts. -/
theorem bit_xorByte {j : Nat} (hj : j < 256) (b : Byte) (cv : Canvas) (q : Nat) :
    (xorByte j b cv).1.bit q =
      (cv.1.bit q ^^ decide (q / 8 = j ∧ b.getLsbD (7 - q % 8) = true)) := by
  simp only [xorByte, FrameBuffer.bit, Vector.getElem?_setIfInBounds]
  by_cases hq : j = q / 8
  · subst hq
    simp [hj]
  · simp [hq, Ne.symm hq]

/-- Two bytes have a set bit in common when their conjunction is not 0. -/
theorem and_ne_zero_iff (a b : Byte) :
    a &&& b ≠ 0#8 ↔ ∃ k < 8, a.getLsbD k = true ∧ b.getLsbD k = true := by
  rw [ne_eq, BitVec.eq_of_getLsbD_eq_iff]
  simp

/-- An aligned row, drawn pixel by pixel, is one byte XOR. -/
theorem drawRow_aligned {j : Nat} (hj : j < 256) (b : Byte) (cv : Canvas) :
    drawRow b (8 * j) cv = xorByte j b cv := by
  have hlt : ∀ q ∈ bitPixels b (8 * j) (List.range 8), q < 2048 := fun q hq => by
    have := ((mem_bitPixels_aligned b j q).1 hq).1
    omega
  obtain ⟨hbits, hhit⟩ := drawPixels_spec _ cv (nodup_bitPixels b (8 * j)) hlt
  rw [drawRow_eq]
  refine Prod.ext (FrameBuffer.eq_of_bit _ _ fun q _ => ?_) ?_
  · rw [hbits, bit_xorByte hj, decide_eq_decide.2 (mem_bitPixels_aligned b j q)]
  · rw [hhit, xorByte]
    congr 1
    rw [Bool.eq_iff_iff, List.any_eq_true, decide_eq_true_iff, and_ne_zero_iff]
    constructor
    · rintro ⟨q, hq, hset⟩
      obtain ⟨rfl, hb⟩ := (mem_bitPixels_aligned b j q).1 hq
      exact ⟨7 - q % 8, by omega, hset, hb⟩
    · rintro ⟨k, hk, hset, hb⟩
      have hdiv : (8 * j + (7 - k)) / 8 = j := by omega
      have hbit : 7 - (8 * j + (7 - k)) % 8 = k := by omega
      refine ⟨8 * j + (7 - k), (mem_bitPixels_aligned b j _).2 ⟨hdiv, by rwa [hbit]⟩, ?_⟩
      rwa [FrameBuffer.bit, hdiv, hbit]

/-- A row from offset `sh` of byte `j` on is its high part in that byte and its low part in the
next: the pixel at offset `c` is in byte `j` while `sh + c < 8` (R187). -/
theorem mem_bitPixels_halves (b : Byte) {sh : Nat} (hsh : sh < 8) (j q : Nat) :
    q ∈ bitPixels b (8 * j + sh) (List.range 8) ↔
      q ∈ bitPixels (b >>> sh) (8 * j) (List.range 8) ∨
      q ∈ bitPixels (b <<< (8 - sh)) (8 * (j + 1)) (List.range 8) := by
  simp only [mem_bitPixels_aligned, BitVec.getLsbD_ushiftRight, BitVec.getLsbD_shiftLeft,
    Bool.and_eq_true, Bool.not_eq_true', decide_eq_true_iff, decide_eq_false_iff_not]
  rw [mem_bitPixels]
  constructor
  · rintro ⟨c, hc, rfl, hb⟩
    by_cases hbyte : sh + c < 8
    · have hbit : sh + (7 - (8 * j + sh + c) % 8) = 7 - c := by omega
      exact .inl ⟨by omega, by rwa [hbit]⟩
    · have hbit : 7 - (8 * j + sh + c) % 8 - (8 - sh) = 7 - c := by omega
      exact .inr ⟨by omega, ⟨by omega, by omega⟩, by rwa [hbit]⟩
  · rintro (⟨hq, hb⟩ | ⟨hq, ⟨-, hge⟩, hb⟩)
    · have hlt : sh + (7 - q % 8) < 8 := BitVec.lt_of_getLsbD hb
      have hbit : 7 - (q % 8 - sh) = sh + (7 - q % 8) := by omega
      exact ⟨q % 8 - sh, by omega, by omega, by rwa [hbit]⟩
    · have hbit : 7 - (q % 8 + (8 - sh)) = 7 - q % 8 - (8 - sh) := by omega
      exact ⟨q % 8 + (8 - sh), by omega, by omega, by rwa [hbit]⟩

/-- A row that leaves its byte is two aligned rows (R187). -/
theorem drawRow_halves (b : Byte) {sh j : Nat} (hsh : sh < 8) (hj : j + 1 < 256) (cv : Canvas) :
    drawRow b (8 * j + sh) cv =
      drawRow (b <<< (8 - sh)) (8 * (j + 1)) (drawRow (b >>> sh) (8 * j) cv) := by
  simp only [drawRow_eq, ← drawPixels_append]
  refine drawPixels_eq_of_mem (nodup_bitPixels b _) ?_ ?_ ?_ cv
  · refine List.nodup_append.2 ⟨nodup_bitPixels _ _, nodup_bitPixels _ _, fun p hp q hq => ?_⟩
    have hp := ((mem_bitPixels_aligned _ _ _).1 hp).1
    have hq := ((mem_bitPixels_aligned _ _ _).1 hq).1
    rintro rfl
    omega
  · intro q hq
    obtain ⟨c, hc, rfl, -⟩ := (mem_bitPixels _ _ _).1 hq
    omega
  · intro q
    rw [List.mem_append, mem_bitPixels_halves b hsh]

/-- The byte-wise form of a row is one byte XOR when it is aligned, two when it is not (R187). -/
theorem bytewiseRow_eq (b : Byte) (x0 row : Nat) (cv : Canvas) : bytewiseRow b x0 row cv =
    if x0 % 8 = 0 then xorByte (8 * row + x0 / 8) (b >>> (x0 % 8)) cv
    else xorByte (8 * row + x0 / 8 + 1) (b <<< (8 - x0 % 8))
      (xorByte (8 * row + x0 / 8) (b >>> (x0 % 8)) cv) := by
  by_cases hsh : x0 % 8 = 0
  · simp only [bytewiseRow, if_pos hsh, xorByte]
  · simp only [bytewiseRow, if_neg hsh, xorByte]
    rfl

/-- Settles O49: an aligned row is one byte XOR; any other is two aligned rows, in bytes of the
framebuffer. -/
theorem drawRowIsBytewise : Obligations.DrawRowIsBytewise := by
  intro b x0 row cv hx0 hrow hstays
  have hpixel : 64 * row + x0 = 8 * (8 * row + x0 / 8) + x0 % 8 := by omega
  have hj : 8 * row + x0 / 8 < 256 := by omega
  rw [bytewiseRow_eq, hpixel]
  split_ifs with hsh
  · rw [hsh, Nat.add_zero, drawRow_aligned hj, BitVec.ushiftRight_zero]
  · have hj1 : 8 * row + x0 / 8 + 1 < 256 := by omega
    rw [drawRow_halves b (Nat.mod_lt _ (by decide)) hj1, drawRow_aligned hj, drawRow_aligned hj1]

end Sys2Proof.Machine
end

section
/-! Runs: timers over many events, and progress under the premises of R284 (spec/60_exceptions.md
R245, R246; spec/70_reset_and_hazards.md R284). -/

namespace Sys2Proof.Machine

/-- A run of any number of steps answers with a state: every step does. -/
theorem run_total (m : Nat) (s : State) : ∃ t, Sys2Proof.core.run m s = .next t := by
  induction m generalizing s with
  | zero => exact ⟨s, rfl⟩
  | succ m ih =>
    obtain ⟨u, hu⟩ := everyStepAnswersNext s
    rw [run_succ hu]
    exact ih u

/-- A run of `m` steps takes exactly the first `m` events (log entry 4). -/
theorem run_eventAt {m : Nat} {s t : State} (h : Sys2Proof.core.run m s = .next t) (k : Nat) :
    t.eventAt k = s.eventAt (m + k) := by
  induction m generalizing s with
  | zero =>
    cases h
    rw [Nat.zero_add]
  | succ m ih =>
    obtain ⟨u, hu⟩ := everyStepAnswersNext s
    rw [run_succ hu] at h
    rw [ih h, step_eventAt hu, Nat.add_right_comm]

/-- The event at place 0 is the one that comes next. -/
theorem eventComesNext_of_eventAt {e : Event} {s : State} (h : s.eventAt 0 = e) :
    EventComesNext e s (nextEvent s).2 := by
  have hnext := eventComesNext_nextEvent s
  rwa [← hnext.eventAt_zero, h] at hnext

/-! ### A timer -/

/-- What makes a field a timer that the instructions `writer x` alone write: a tick counts it down,
and nothing else touches it (R33, R245, R246). -/
structure IsTimer (timer : State → Byte) (writer : RegNum → Instr) : Prop where
  onTick : ∀ s, timer (tick s) = countDown (timer s)
  onKey : ∀ phys pressed s, timer (keyEvent phys pressed s) = timer s
  onDisconnect : ∀ s, timer (disconnect s) = timer s
  onHalt : ∀ c s, timer (s.setHalt c) = timer s
  onAdvance : ∀ s, timer s.advance = timer s
  onEvents : ∀ s es l, timer (s.withEvents es l) = timer s
  onExec : ∀ i s t, exec i s = .next t → (∀ x, i ≠ writer x) → timer t = timer s

theorem delayTimer : IsTimer State.dt .ldDTVx where
  onTick _ := rfl
  onKey phys pressed s := by rw [keyEvent_same]
  onDisconnect s := by rw [disconnect_same]
  onHalt _ _ := rfl
  onAdvance _ := rfl
  onEvents _ _ _ := rfl
  onExec _ _ _ := exec_keeps_dt

theorem soundTimer : IsTimer State.st .ldSTVx where
  onTick _ := rfl
  onKey phys pressed s := by rw [keyEvent_same]
  onDisconnect s := by rw [disconnect_same]
  onHalt _ _ := rfl
  onAdvance _ := rfl
  onEvents _ _ _ := rfl
  onExec _ _ _ := exec_keeps_st

section
variable {timer : State → Byte} {writer : RegNum → Instr} (ht : IsTimer timer writer)
include ht

/-- A step cycle that does not execute a writer of the timer leaves it (R246). -/
theorem IsTimer.runStep {s t : State} (h : runStep s = .next t)
    (hno : ∀ x, s.pc.toNat ≤ 4094 → decodeWord (fetchWord s) ≠ .instr (writer x)) :
    timer t = timer s := by
  rcases runStep_next.1 h with ⟨-, rfl⟩ | ⟨-, c, -, rfl⟩ | ⟨hpc, i, hi, hx⟩
  · exact ht.onHalt _ s
  · rw [ht.onHalt, ht.onAdvance]
  · have hne (x : RegNum) : i ≠ writer x := by
      rintro rfl
      exact hno x (by omega) hi
    rw [ht.onExec i s.advance t hx hne, ht.onAdvance]

/-- One step takes 1 from the timer, down to 0, if its event is a tick, and else leaves it. -/
theorem IsTimer.step {s t : State} (h : step s = .next t) (hno : ∀ x, ¬ Executes s (writer x)) :
    (timer t).toNat = (timer s).toNat - (if s.eventAt 0 = .tick then 1 else 0) := by
  have hnext := eventComesNext_nextEvent s
  obtain ⟨es, l, hs0⟩ := hnext.exists_withEvents
  have hsame : timer (nextEvent s).2 = timer s := by rw [hs0, ht.onEvents]
  rw [step_of_event hnext] at h
  rw [hnext.eventAt_zero]
  rcases runEvent_cases h with
    ⟨he, rfl⟩ | ⟨he, hrun, hstep⟩ | ⟨he, rfl⟩ | ⟨phys, pressed, he, rfl⟩ | ⟨he, rfl⟩
  · rw [if_neg he, hsame, Nat.sub_zero]
  · have hkeep : timer t = timer (nextEvent s).2 :=
      ht.runStep hstep fun x hpc hi =>
        hno x ⟨_, eventComesNext_of_eventAt (hnext.eventAt_zero.trans he), hrun, hpc, hi⟩
    rw [he, if_neg nofun, hkeep, hsame, Nat.sub_zero]
  · rw [if_pos he, ht.onTick, countDown_toNat, hsame]
  · rw [he, if_neg nofun, ht.onKey, hsame, Nat.sub_zero]
  · rw [he, if_neg nofun, ht.onDisconnect, hsame, Nat.sub_zero]

/-- However events are interleaved, a timer that none of them writes falls by their ticks (R246). -/
theorem IsTimer.run {m : Nat} {s t : State} (h : Sys2Proof.core.run m s = .next t)
    (hno : ∀ k u x, k < m → Sys2Proof.core.run k s = .next u → ¬ Executes u (writer x)) :
    (timer t).toNat = (timer s).toNat - s.ticksIn m := by
  induction m generalizing s with
  | zero =>
    cases h
    rfl
  | succ m ih =>
    obtain ⟨u, hu⟩ := everyStepAnswersNext s
    rw [run_succ hu] at h
    rw [ih h fun k w x hk hw => hno (k + 1) w x (by omega) (by rw [run_succ hu, hw]),
      ht.step hu fun x => hno 0 s x (Nat.succ_pos m) rfl, ticksIn_succ hu, Nat.sub_sub]

end

/-! ### Ticks alone -/

/-- Where a tick comes next no instruction is executed. -/
theorem not_executes_of_tick {s : State} (h : s.eventAt 0 = .tick) (i : Instr) :
    ¬ Executes s i := by
  rintro ⟨s0, hnext, -⟩
  cases h.symm.trans hnext.eventAt_zero

/-- Ticks alone change nothing but the timers and the events to come (R245). -/
theorem run_ticks_same {m : Nat} {s t : State} (h : Sys2Proof.core.run m s = .next t)
    (hticks : ∀ k < m, s.eventAt k = .tick) :
    t = { s with dt := t.dt, st := t.st, schedule := t.schedule, later := t.later } := by
  induction m generalizing s with
  | zero =>
    cases h
    rfl
  | succ m ih =>
    have hnext := eventComesNext_of_eventAt (hticks 0 (Nat.succ_pos m))
    have hu := step_tick hnext
    rw [run_succ hu] at h
    have htail := ih h fun k hk => by rw [step_eventAt hu]; exact hticks (k + 1) (by omega)
    obtain ⟨es, l, hs0⟩ := hnext.exists_withEvents
    rw [hs0] at htail
    exact htail

theorem ticksIn_of_all {m : Nat} {s : State} (hticks : ∀ k < m, s.eventAt k = .tick) :
    s.ticksIn m = m := by
  have hall : ∀ k ∈ List.range m, decide (s.eventAt k = .tick) = true := fun k hk =>
    decide_eq_true (hticks k (List.mem_range.1 hk))
  rw [State.ticksIn, List.countP_eq_length.2 hall, List.length_range]

/-- Settles O59: `IsTimer.run` for each timer; among ticks alone nothing is executed. -/
theorem timersAfterManyTicks : Obligations.TimersAfterManyTicks := by
  intro m s
  obtain ⟨t, h⟩ := run_total m s
  refine ⟨t, h, delayTimer.run h, soundTimer.run h, fun hticks => ?_, run_eventAt h⟩
  have hno (i : RegNum → Instr) (k : Nat) (u : State) (x : RegNum) (hk : k < m)
      (hu : Sys2Proof.core.run k s = .next u) : ¬ Executes u (i x) :=
    not_executes_of_tick ((run_eventAt hu 0).trans (hticks k hk)) (i x)
  refine ⟨run_ticks_same h hticks, ?_, ?_⟩
  · rw [delayTimer.run h (hno .ldDTVx), ticksIn_of_all hticks]
  · rw [soundTimer.run h (hno .ldSTVx), ticksIn_of_all hticks]

/-! ### Progress -/

/-- A state whose next event is a `Step` comes to it in no steps. -/
theorem reaches_step_now {s : State} (h : s.eventAt 0 = .step) :
    ∃ n u s0, Sys2Proof.core.run n s = .next u ∧ StepComesNext u s0 ∧ SameInterpreter s s0 := by
  have hnext := eventComesNext_of_eventAt h
  obtain ⟨es, l, hs0⟩ := hnext.exists_withEvents
  exact ⟨0, s, _, rfl, hnext, hs0 ▸ rfl⟩

theorem SameInterpreter.running {s t : State} (h : SameInterpreter s t) (hrun : s.Running) :
    t.Running := by
  unfold SameInterpreter at h
  rw [h]
  exact hrun

/-- A running Interpreter comes to a `Step` that lies ahead, as it is (R284). -/
theorem reaches_step (k : Nat) {s : State} (hrun : s.Running) (hk : s.eventAt k = .step) :
    ∃ n u s0, Sys2Proof.core.run n s = .next u ∧ StepComesNext u s0 ∧ SameInterpreter s s0 := by
  induction k generalizing s with
  | zero => exact reaches_step_now hk
  | succ k ih =>
    by_cases h0 : s.eventAt 0 = .step
    · exact reaches_step_now h0
    · obtain ⟨t, ht⟩ := everyStepAnswersNext s
      have hsame := step_sameInterpreter hrun.2 (.inr h0) ht
      obtain ⟨n, u, s0, hn, hnext, hrest⟩ := ih (hsame.running hrun) ((step_eventAt ht k).trans hk)
      exact ⟨n + 1, u, s0, (run_succ ht).trans hn, hnext, hsame.trans hrest⟩

/-- Ticks that keep coming are as many as one likes (R284). -/
theorem ticksIn_unbounded {s : State} (hticks : s.TicksKeepComing) (n : Nat) :
    ∃ m, n ≤ s.ticksIn m := by
  induction n with
  | zero => exact ⟨0, Nat.zero_le _⟩
  | succ n ih =>
    obtain ⟨m, hm⟩ := ih
    obtain ⟨k, hmk, hk⟩ := hticks m
    have hmono : s.ticksIn m ≤ s.ticksIn k :=
      List.Sublist.countP_le (List.range_sublist.2 hmk)
    have hsucc : s.ticksIn (k + 1) = s.ticksIn k + 1 := by
      simp [State.ticksIn, List.range_succ, List.countP_append, hk]
    exact ⟨k + 1, by omega⟩

/-- A timer that is not written again reaches 0 when ticks keep coming (R284). -/
theorem IsTimer.reaches_zero {timer : State → Byte} {writer : RegNum → Instr}
    (ht : IsTimer timer writer) {s : State} (hticks : s.TicksKeepComing)
    (hno : ∀ k u x, Sys2Proof.core.run k s = .next u → ¬ Executes u (writer x)) :
    ∃ n t, Sys2Proof.core.run n s = .next t ∧ timer t = 0 := by
  obtain ⟨m, hm⟩ := ticksIn_unbounded hticks (timer s).toNat
  obtain ⟨t, h⟩ := run_total m s
  refine ⟨m, t, h, BitVec.eq_of_toNat_eq ?_⟩
  rw [ht.run h fun k u x _ => hno k u x, Nat.sub_eq_zero_of_le hm]
  rfl

/-- The events that end a wait (R249, R252). -/
def IsWake (e : Event) : Prop := e = .disconnect ∨ ∃ phys, e = .key phys true ∧ keyMap phys ≠ none

/-- A wake that comes next ends the wait. -/
theorem step_wake {s t : State} (hi : s.Inv) (hparked : s.Parked) (hwake : IsWake (s.eventAt 0))
    (h : step s = .next t) : ¬ t.Parked := by
  have hopen := (hi.parked_live hparked).2
  rcases hwake with he | ⟨phys, he, hmapped⟩
  · have hnext := eventComesNext_of_eventAt he
    obtain rfl := next_inj.1 ((step_disconnect hnext hopen).symm.trans h)
    exact not_not.2 (disconnect_wait (hnext.inv hi))
  · have hnext := eventComesNext_of_eventAt he
    obtain rfl := next_inj.1 ((step_key hnext hopen).symm.trans h)
    obtain ⟨k, hk⟩ := Option.ne_none_iff_exists'.1 hmapped
    obtain ⟨x, hx⟩ := Option.ne_none_iff_exists'.1 hparked
    rw [keyEvent_wakes (hnext.wait_eq.trans hx) hk]
    exact not_not.2 rfl

/-- A parked Interpreter with a wake ahead stops waiting (R284). -/
theorem stops_waiting (k : Nat) {s : State} (hi : s.Inv) (hparked : s.Parked)
    (hwake : IsWake (s.eventAt k)) :
    ∃ n t, Sys2Proof.core.run n s = .next t ∧ ¬ t.Parked := by
  induction k generalizing s with
  | zero =>
    obtain ⟨t, h⟩ := everyStepAnswersNext s
    exact ⟨1, t, run_succ h, step_wake hi hparked hwake h⟩
  | succ k ih =>
    obtain ⟨u, hu⟩ := everyStepAnswersNext s
    by_cases hup : u.Parked
    · obtain ⟨n, t, hn, ht⟩ := ih (stepKeepsInvariant s u hi hu) hup (by rwa [step_eventAt hu])
      exact ⟨n + 1, t, (run_succ hu).trans hn, ht⟩
    · exact ⟨1, u, run_succ hu, hup⟩

/-- Settles O9: each premise gives a place ahead, or ticks enough, and the events before it do no
harm. -/
theorem progressUnderFairness : Obligations.ProgressUnderFairness := by
  refine ⟨fun s hsteps hrun => ?_, fun s hticks => ⟨?_, ?_⟩, fun s hi hparked hwake => ?_⟩
  · obtain ⟨k, -, hk⟩ := hsteps 0
    exact reaches_step k hrun hk
  · exact delayTimer.reaches_zero hticks
  · exact soundTimer.reaches_zero hticks
  · obtain ⟨k, hk⟩ := hwake
    exact stops_waiting k hi hparked hk

end Sys2Proof.Machine
end
